-- ==== Sys2Proof/Word.lean ====
section
/-! DEFINITION. The word types of the block: bytes, instruction words, 12-bit address fields, register numbers. -/

namespace Sys2Proof

/-- An 8-bit value: a register, a timer, a memory byte, an immediate (R5 `NREG`, `TIMER_BITS`). -/
abbrev Byte := BitVec 8

/-- A 16-bit value: an instruction word, `PC`, `I`, a stack slot (R5 `PC_BITS`, `I_BITS`, R80). -/
abbrev Word := BitVec 16

/-- A 12-bit address field `nnn` of an instruction word (R5 `ADDR_BITS`, R82). -/
abbrev Addr12 := BitVec 12

/-- A general register number, 0 to 15 (R21, R83: in range by construction). -/
abbrev Reg := Fin 16

/-- The flag register is register 0xF (R5 `FLAGREG`, R22). -/
abbrev flagReg : Reg := 0xF

end Sys2Proof
end

