-- ==== Sys2Proof/Syntax.lean ====
section
/-! DEFINITION. The instruction set: one constructor per row of the opcode table (R84, R85), operands as R82 names them. -/

namespace Sys2Proof

/-- The 34 operations of the decoder (R84), by the identifiers of the opcode table. -/
inductive Op where
  | cls | ret | jp | call | seImm | sneImm | seReg | ldImm | addImm
  | ldReg | orReg | andReg | xorReg | addReg | sub | shr | subn | shl
  | sneReg | ldI | jpV0 | rnd | drw | skp | sknp
  | ldVxDt | ldVxK | ldDtVx | ldStVx | addIVx | ldFVx | ldBVx | ldMemVx | ldVxMem
  deriving DecidableEq, Repr

/-- An instruction. `x` and `y` are register numbers, `nn` an immediate byte, `nnn` an address field, `n` a row count. -/
inductive Instr where
  /-- CLS: clear the display (R200). -/
  | cls
  /-- RET: return from subroutine (R130). -/
  | ret
  /-- JP nnn (R131). -/
  | jp (nnn : Addr12)
  /-- CALL nnn (R132). -/
  | call (nnn : Addr12)
  /-- SE Vx, nn (R133). -/
  | seImm (x : Reg) (nn : Byte)
  /-- SNE Vx, nn (R134). -/
  | sneImm (x : Reg) (nn : Byte)
  /-- SE Vx, Vy (R135). -/
  | seReg (x y : Reg)
  /-- LD Vx, nn (R151). -/
  | ldImm (x : Reg) (nn : Byte)
  /-- ADD Vx, nn (R152). -/
  | addImm (x : Reg) (nn : Byte)
  /-- LD Vx, Vy (R153). -/
  | ldReg (x y : Reg)
  /-- OR Vx, Vy (R154). -/
  | orReg (x y : Reg)
  /-- AND Vx, Vy (R155). -/
  | andReg (x y : Reg)
  /-- XOR Vx, Vy (R156). -/
  | xorReg (x y : Reg)
  /-- ADD Vx, Vy (R159). -/
  | addReg (x y : Reg)
  /-- SUB Vx, Vy (R160). -/
  | sub (x y : Reg)
  /-- SHR Vx, Vy (R161). -/
  | shr (x y : Reg)
  /-- SUBN Vx, Vy (R162). -/
  | subn (x y : Reg)
  /-- SHL Vx, Vy (R163). -/
  | shl (x y : Reg)
  /-- SNE Vx, Vy (R136). -/
  | sneReg (x y : Reg)
  /-- LD I, nnn (R180). -/
  | ldI (nnn : Addr12)
  /-- JP V0, nnn (R137). -/
  | jpV0 (nnn : Addr12)
  /-- RND Vx, nn (R170). -/
  | rnd (x : Reg) (nn : Byte)
  /-- DRW Vx, Vy, n: `n` is a count of sprite rows, 0 to 15 (R83, R203); the bound is `Instr.wf`'s. -/
  | drw (x y : Reg) (n : Nat)
  /-- SKP Vx (R220). -/
  | skp (x : Reg)
  /-- SKNP Vx (R221). -/
  | sknp (x : Reg)
  /-- LD Vx, DT (R222). -/
  | ldVxDt (x : Reg)
  /-- LD Vx, K (R223). -/
  | ldVxK (x : Reg)
  /-- LD DT, Vx (R224). -/
  | ldDtVx (x : Reg)
  /-- LD ST, Vx (R225). -/
  | ldStVx (x : Reg)
  /-- ADD I, Vx (R181). -/
  | addIVx (x : Reg)
  /-- LD F, Vx (R182). -/
  | ldFVx (x : Reg)
  /-- LD B, Vx (R183). -/
  | ldBVx (x : Reg)
  /-- LD [I], Vx (R184). -/
  | ldMemVx (x : Reg)
  /-- LD Vx, [I] (R185). -/
  | ldVxMem (x : Reg)
  deriving DecidableEq, Repr

/-- The row of the opcode table an instruction belongs to. -/
def Instr.op : Instr → Op
  | .cls => .cls
  | .ret => .ret
  | .jp _ => .jp
  | .call _ => .call
  | .seImm _ _ => .seImm
  | .sneImm _ _ => .sneImm
  | .seReg _ _ => .seReg
  | .ldImm _ _ => .ldImm
  | .addImm _ _ => .addImm
  | .ldReg _ _ => .ldReg
  | .orReg _ _ => .orReg
  | .andReg _ _ => .andReg
  | .xorReg _ _ => .xorReg
  | .addReg _ _ => .addReg
  | .sub _ _ => .sub
  | .shr _ _ => .shr
  | .subn _ _ => .subn
  | .shl _ _ => .shl
  | .sneReg _ _ => .sneReg
  | .ldI _ => .ldI
  | .jpV0 _ => .jpV0
  | .rnd _ _ => .rnd
  | .drw _ _ _ => .drw
  | .skp _ => .skp
  | .sknp _ => .sknp
  | .ldVxDt _ => .ldVxDt
  | .ldVxK _ => .ldVxK
  | .ldDtVx _ => .ldDtVx
  | .ldStVx _ => .ldStVx
  | .addIVx _ => .addIVx
  | .ldFVx _ => .ldFVx
  | .ldBVx _ => .ldBVx
  | .ldMemVx _ => .ldMemVx
  | .ldVxMem _ => .ldVxMem

end Sys2Proof
end

