-- ==== Sys2Proof/Decode.lean ====
section
/-! DEFINITION. Decoding an instruction word (R80 to R88), the opcode map (R85), and the encoder (R81, R90). -/

namespace Sys2Proof

/-- Why bytes are no instruction. -/
inductive DecodeError where
  /-- Fewer than two bytes: every instruction is one 16-bit word (R80). -/
  | truncated
  /-- The word is one of R87's unknown words. -/
  | unknown (w : Word)
  deriving DecidableEq, Repr

/-- `family`, `w[15:12]` (R82). -/
def fieldFamily (w : Word) : BitVec 4 := w.extractLsb' 12 4
/-- `x`, `w[11:8]` (R82). -/
def fieldX (w : Word) : Reg := (w.extractLsb' 8 4).toFin
/-- `y`, `w[7:4]` (R82). -/
def fieldY (w : Word) : Reg := (w.extractLsb' 4 4).toFin
/-- `n`, `w[3:0]` (R82). -/
def fieldN (w : Word) : BitVec 4 := w.extractLsb' 0 4
/-- `nn`, `w[7:0]` (R82). -/
def fieldNN (w : Word) : Byte := w.extractLsb' 0 8
/-- `nnn`, `w[11:0]` (R82). -/
def fieldNNN (w : Word) : Addr12 := w.extractLsb' 0 12

/-- Family 0x0: the low nibble selects, bits 11..4 are ignored (R84, R86). -/
def decodeFamily0 (w : Word) : Except DecodeError Instr :=
  if fieldN w = 0x0#4 then .ok .cls
  else if fieldN w = 0xE#4 then .ok .ret
  else .error (.unknown w)

/-- Family 0x8: the low nibble selects (R84). -/
def decodeFamily8 (w : Word) : Except DecodeError Instr :=
  if fieldN w = 0x0#4 then .ok (.ldReg (fieldX w) (fieldY w))
  else if fieldN w = 0x1#4 then .ok (.orReg (fieldX w) (fieldY w))
  else if fieldN w = 0x2#4 then .ok (.andReg (fieldX w) (fieldY w))
  else if fieldN w = 0x3#4 then .ok (.xorReg (fieldX w) (fieldY w))
  else if fieldN w = 0x4#4 then .ok (.addReg (fieldX w) (fieldY w))
  else if fieldN w = 0x5#4 then .ok (.sub (fieldX w) (fieldY w))
  else if fieldN w = 0x6#4 then .ok (.shr (fieldX w) (fieldY w))
  else if fieldN w = 0x7#4 then .ok (.subn (fieldX w) (fieldY w))
  else if fieldN w = 0xE#4 then .ok (.shl (fieldX w) (fieldY w))
  else .error (.unknown w)

/-- Family 0xE: the low byte selects (R84). -/
def decodeFamilyE (w : Word) : Except DecodeError Instr :=
  if fieldNN w = 0x9E#8 then .ok (.skp (fieldX w))
  else if fieldNN w = 0xA1#8 then .ok (.sknp (fieldX w))
  else .error (.unknown w)

/-- Family 0xF: the low byte selects (R84). -/
def decodeFamilyF (w : Word) : Except DecodeError Instr :=
  if fieldNN w = 0x07#8 then .ok (.ldVxDt (fieldX w))
  else if fieldNN w = 0x0A#8 then .ok (.ldVxK (fieldX w))
  else if fieldNN w = 0x15#8 then .ok (.ldDtVx (fieldX w))
  else if fieldNN w = 0x18#8 then .ok (.ldStVx (fieldX w))
  else if fieldNN w = 0x1E#8 then .ok (.addIVx (fieldX w))
  else if fieldNN w = 0x29#8 then .ok (.ldFVx (fieldX w))
  else if fieldNN w = 0x33#8 then .ok (.ldBVx (fieldX w))
  else if fieldNN w = 0x55#8 then .ok (.ldMemVx (fieldX w))
  else if fieldNN w = 0x65#8 then .ok (.ldVxMem (fieldX w))
  else .error (.unknown w)

/-- The decoder of R84: a total function of the instruction word alone. -/
def decodeWord (w : Word) : Except DecodeError Instr :=
  if fieldFamily w = 0x0#4 then decodeFamily0 w
  else if fieldFamily w = 0x1#4 then .ok (.jp (fieldNNN w))
  else if fieldFamily w = 0x2#4 then .ok (.call (fieldNNN w))
  else if fieldFamily w = 0x3#4 then .ok (.seImm (fieldX w) (fieldNN w))
  else if fieldFamily w = 0x4#4 then .ok (.sneImm (fieldX w) (fieldNN w))
  else if fieldFamily w = 0x5#4 then .ok (.seReg (fieldX w) (fieldY w))
  else if fieldFamily w = 0x6#4 then .ok (.ldImm (fieldX w) (fieldNN w))
  else if fieldFamily w = 0x7#4 then .ok (.addImm (fieldX w) (fieldNN w))
  else if fieldFamily w = 0x8#4 then decodeFamily8 w
  else if fieldFamily w = 0x9#4 then .ok (.sneReg (fieldX w) (fieldY w))
  else if fieldFamily w = 0xA#4 then .ok (.ldI (fieldNNN w))
  else if fieldFamily w = 0xB#4 then .ok (.jpV0 (fieldNNN w))
  else if fieldFamily w = 0xC#4 then .ok (.rnd (fieldX w) (fieldNN w))
  else if fieldFamily w = 0xD#4 then .ok (.drw (fieldX w) (fieldY w) (fieldN w).toNat)
  else if fieldFamily w = 0xE#4 then decodeFamilyE w
  else decodeFamilyF w

/-- Two bytes as an instruction word, the first one bits 15..8 (R52: big-endian). -/
def wordOfBytes (hi lo : Byte) : Word := hi ++ lo
/-- The byte of a word at the lower address, bits 15..8 (R53). -/
def highByte (w : Word) : Byte := w.extractLsb' 8 8
/-- The byte of a word at the higher address, bits 7..0 (R53). -/
def lowByte (w : Word) : Byte := w.extractLsb' 0 8

/-- Decoding from a list of bytes in address order: the first instruction and the bytes after it. -/
def decode : List Byte → Except DecodeError (Instr × List Byte)
  | hi :: lo :: rest => (decodeWord (wordOfBytes hi lo)).map fun i => (i, rest)
  | [_] => .error .truncated
  | [] => .error .truncated

/-- The column "mask" of the opcode map (R85). -/
def Op.mask : Op → Word
  | .cls | .ret => 0xF00F
  | .jp | .call | .seImm | .sneImm | .seReg | .ldImm | .addImm => 0xF000
  | .ldReg | .orReg | .andReg | .xorReg | .addReg | .sub | .shr | .subn | .shl => 0xF00F
  | .sneReg | .ldI | .jpV0 | .rnd | .drw => 0xF000
  | .skp | .sknp => 0xF0FF
  | .ldVxDt | .ldVxK | .ldDtVx | .ldStVx | .addIVx | .ldFVx | .ldBVx | .ldMemVx | .ldVxMem => 0xF0FF

/-- The column "match" of the opcode map (R85). -/
def Op.value : Op → Word
  | .cls => 0x0000
  | .ret => 0x000E
  | .jp => 0x1000
  | .call => 0x2000
  | .seImm => 0x3000
  | .sneImm => 0x4000
  | .seReg => 0x5000
  | .ldImm => 0x6000
  | .addImm => 0x7000
  | .ldReg => 0x8000
  | .orReg => 0x8001
  | .andReg => 0x8002
  | .xorReg => 0x8003
  | .addReg => 0x8004
  | .sub => 0x8005
  | .shr => 0x8006
  | .subn => 0x8007
  | .shl => 0x800E
  | .sneReg => 0x9000
  | .ldI => 0xA000
  | .jpV0 => 0xB000
  | .rnd => 0xC000
  | .drw => 0xD000
  | .skp => 0xE09E
  | .sknp => 0xE0A1
  | .ldVxDt => 0xF007
  | .ldVxK => 0xF00A
  | .ldDtVx => 0xF015
  | .ldStVx => 0xF018
  | .addIVx => 0xF01E
  | .ldFVx => 0xF029
  | .ldBVx => 0xF033
  | .ldMemVx => 0xF055
  | .ldVxMem => 0xF065

/-- Layout `A` (R81): family, address. -/
def layoutA (f : BitVec 4) (nnn : Addr12) : Word := f ++ nnn
/-- Layouts `XK` and `XS` (R81): family, register, immediate or selector byte. -/
def layoutXK (f : BitVec 4) (x : Reg) (nn : Byte) : Word := (f ++ (BitVec.ofFin x : BitVec 4)) ++ nn
/-- Layout `XYN` (R81): family, two registers, low nibble. -/
def layoutXYN (f : BitVec 4) (x y : Reg) (n : BitVec 4) : Word :=
  ((f ++ (BitVec.ofFin x : BitVec 4)) ++ (BitVec.ofFin y : BitVec 4)) ++ n

/-- The encoder: the one word R90 gives each syntax form. Where the decoder ignores bits, this is the canonical
spelling (0x00E0, 0x00EE, low nibble 0 in families 0x5 and 0x9). -/
def encode : Instr → Word
  | .cls => 0x00E0
  | .ret => 0x00EE
  | .jp nnn => layoutA 0x1 nnn
  | .call nnn => layoutA 0x2 nnn
  | .seImm x nn => layoutXK 0x3 x nn
  | .sneImm x nn => layoutXK 0x4 x nn
  | .seReg x y => layoutXYN 0x5 x y 0x0
  | .ldImm x nn => layoutXK 0x6 x nn
  | .addImm x nn => layoutXK 0x7 x nn
  | .ldReg x y => layoutXYN 0x8 x y 0x0
  | .orReg x y => layoutXYN 0x8 x y 0x1
  | .andReg x y => layoutXYN 0x8 x y 0x2
  | .xorReg x y => layoutXYN 0x8 x y 0x3
  | .addReg x y => layoutXYN 0x8 x y 0x4
  | .sub x y => layoutXYN 0x8 x y 0x5
  | .shr x y => layoutXYN 0x8 x y 0x6
  | .subn x y => layoutXYN 0x8 x y 0x7
  | .shl x y => layoutXYN 0x8 x y 0xE
  | .sneReg x y => layoutXYN 0x9 x y 0x0
  | .ldI nnn => layoutA 0xA nnn
  | .jpV0 nnn => layoutA 0xB nnn
  | .rnd x nn => layoutXK 0xC x nn
  | .drw x y n => layoutXYN 0xD x y (BitVec.ofNat 4 n)
  | .skp x => layoutXK 0xE x 0x9E
  | .sknp x => layoutXK 0xE x 0xA1
  | .ldVxDt x => layoutXK 0xF x 0x07
  | .ldVxK x => layoutXK 0xF x 0x0A
  | .ldDtVx x => layoutXK 0xF x 0x15
  | .ldStVx x => layoutXK 0xF x 0x18
  | .addIVx x => layoutXK 0xF x 0x1E
  | .ldFVx x => layoutXK 0xF x 0x29
  | .ldBVx x => layoutXK 0xF x 0x33
  | .ldMemVx x => layoutXK 0xF x 0x55
  | .ldVxMem x => layoutXK 0xF x 0x65

/-- An instruction as its two bytes in address order (R52, R53). -/
def encodeBytes (i : Instr) : List Byte := [highByte (encode i), lowByte (encode i)]

/-- The instruction word whose bits, numbered as the opcode table numbers them, are the low `nbits` bits of `w`; the
bits of the word above `nbits` are 0. -/
def tableWord (nbits w : Nat) : Word := BitVec.ofNat 16 (w % 2 ^ nbits)

/-- The instruction the decoder reads from an instruction given in the opcode table's bit numbering: the word is laid
out big-endian in two bytes (R52) and those bytes are decoded. An instruction has 16 bits (R80), so a longer one is none. -/
def decodeTableWord (nbits w : Nat) : Option Instr :=
  if nbits ≤ 16 then
    match decode [highByte (tableWord nbits w), lowByte (tableWord nbits w)] with
    | .ok (i, _) => some i
    | .error _ => none
  else none

end Sys2Proof
end

