-- ==== Sys2Proof/Config.lean ====
section
/-! DEFINITION. The implementation parameters of R5 as a record, and the one free value of the model, the random byte. -/

namespace Sys2Proof

/-- `SE_REG_MODE` (R5, R135): what 5XY0 adds to `PC`. -/
inductive SeRegMode where
  | standard
  | handlerOnly
  deriving DecidableEq, Repr

/-- `FONT_ADDR_MODE` (R5, R182): the address FX29 puts into `I`. -/
inductive FontAddrMode where
  | mod5
  | glyph
  deriving DecidableEq, Repr

/-- `REGRANGE_MODE` (R5, R184, R185): the first address of FX55 and FX65. -/
inductive RegRangeMode where
  | preincrement
  | standard
  deriving DecidableEq, Repr

/-- `FLAG_ORDER` (R5, R157): which write of a flag-setting ALU operation is the later one. -/
inductive FlagOrder where
  | flagLast
  | resultLast
  deriving DecidableEq, Repr

/-- `KEY_INDEX_POLICY` (R5, R226): what a key number of 16 or more does. -/
inductive KeyIndexPolicy where
  | fault
  | mask
  deriving DecidableEq, Repr

/-- `UNKNOWN_POLICY` (R5, R108): what an unknown word does to `PC`. -/
inductive UnknownPolicy where
  | advance
  | stall
  deriving DecidableEq, Repr

/-- The 80 font bytes (R5 `FONT_SIZE`, R40). -/
abbrev FontTable := Vector Byte 80

/-- The parameters of R5 that the spec marks as decisions. They are fixed for a machine: no instruction and no
transaction changes them. Their defaults are `Params.default` (Sys2Proof/Machine/Params.lean). -/
structure Config where
  /-- `MEM_SIZE`: valid addresses are 0 to `memSize - 1` (R50). -/
  memSize : Nat
  /-- `FONT`: the bytes at 0x000 to 0x04F after construction and after `reset()` (R40). -/
  font : FontTable
  seRegMode : SeRegMode
  fontAddrMode : FontAddrMode
  regRangeMode : RegRangeMode
  flagOrder : FlagOrder
  keyIndexPolicy : KeyIndexPolicy
  unknownPolicy : UnknownPolicy
  deriving DecidableEq, Repr

/-- FREE VALUE. The random byte that a cycle is given when no `cycle(rnd)` transaction names one: "`rnd` is a free input
of the cycle, any of the 256 byte values, under no law" (R170, R7). It is applied to the count of free bytes already
taken, so that every one of them is a different unconstrained value. Log entry 2. -/
opaque Config.rndByte : Nat → Byte

end Sys2Proof
end

