-- ==== Sys2Proof/Machine/Params.lean ====
section
/-! DEFINITION. The fixed values of R5 and the default value of every parameter. -/

namespace Sys2Proof.Machine

/-- `PROGRAM_BASE` (R5): the entry point and the load address. -/
def Params.programBase : Word := 0x200

/-- `FONT_BASE` (R5). -/
def Params.fontBase : Nat := 0x000

/-- `FONT_SIZE` (R5). -/
def Params.fontSize : Nat := 80

/-- The default `FONT` of R40, glyph 0 to glyph F, five bytes each. The source gives no font bytes: this is the spec's
default, which it marks "from general knowledge, not in source" (D28, G1). PRESUMED, log entry 8. -/
def Params.defaultFont : FontTable := #v[
  0xF0, 0x90, 0x90, 0x90, 0xF0,  0x20, 0x60, 0x20, 0x20, 0x70,
  0xF0, 0x10, 0xF0, 0x80, 0xF0,  0xF0, 0x10, 0xF0, 0x10, 0xF0,
  0x90, 0x90, 0xF0, 0x10, 0x10,  0xF0, 0x80, 0xF0, 0x10, 0xF0,
  0xF0, 0x80, 0xF0, 0x90, 0xF0,  0xF0, 0x10, 0x20, 0x40, 0x40,
  0xF0, 0x90, 0xF0, 0x90, 0xF0,  0xF0, 0x90, 0xF0, 0x10, 0xF0,
  0xF0, 0x90, 0xF0, 0x90, 0x90,  0xE0, 0x90, 0xE0, 0x90, 0xE0,
  0xF0, 0x80, 0x80, 0x80, 0xF0,  0xE0, 0x90, 0x90, 0x90, 0xE0,
  0xF0, 0x80, 0xF0, 0x80, 0xF0,  0xF0, 0x80, 0xF0, 0x80, 0x80]

/-- The default of every parameter (R5). Log entry 1. -/
def Params.default : Config where
  memSize := 4095
  font := Params.defaultFont
  seRegMode := .standard
  fontAddrMode := .mod5
  regRangeMode := .preincrement
  flagOrder := .flagLast
  keyIndexPolicy := .fault
  unknownPolicy := .advance

end Sys2Proof.Machine
end

