-- ==== Sys2Proof/Machine/State.lean ====
section
/-! DEFINITION. The state record of R20 as plain data, the fatal outcomes it can hold, the outputs of a cycle, and the
state after construction. -/

namespace Sys2Proof.Machine

/-- A fatal outcome with its info (R241). -/
inductive Fatal where
  /-- Code 2: CALL with `SP == 16`; the info is the CALL's address (R132). -/
  | stackOverflow (pc : Word)
  /-- Code 3: RET with `SP == 0`; the info is the RET's address (R130). -/
  | stackUnderflow (pc : Word)
  /-- Code 4: an access at an address at or above `MEM_SIZE`; the info is the first such address, an unbounded integer
  (R55, R56). -/
  | memoryBounds (a : Nat)
  /-- Code 5: SKP or SKNP with a key number of 16 or more; the info is that number (R226). -/
  | keyIndexRange (v : Byte)
  deriving DecidableEq, Repr

/-- The outcome of a cycle (R241). It is an output of the cycle and no state (R41). -/
inductive CycleOutcome where
  /-- Code 0. -/
  | ok
  /-- Code 1, not fatal: the word is no instruction (R108). -/
  | unknownInstruction (w : Word)
  /-- Codes 2 to 5. -/
  | fatal (f : Fatal)
  deriving DecidableEq, Repr

/-- Why the machine stops with a fault. It has no constructor: every error the spec describes has a next state. A fatal
outcome enters the halted state (R245, `Fatal` in the field `halt`), an unknown word is not fatal (R108), and the spec
gives no instruction an undefined effect. So no meaning and no step raises a fault, which is safe: nothing is cut off. -/
inductive Fault where
  deriving DecidableEq, Repr

/-- Why an instruction has no meaning in the model. -/
inductive Refusal where
  /-- Raised by `exec` for an instruction the model does not cover yet, by the table's mnemonic: safe, the run stops. No
  arm of `exec` raises it now. -/
  | notModelled (mnemonic : String)
  deriving DecidableEq, Repr

/-- `MEM` (R50) as the bytes that differ from what the address holds after construction, addresses strictly rising
(`Memory.wf`). -/
abbrev Memory := List Host.Cell

/-- `DISP` (R34): 32 rows, top to bottom, of 64 cells, left to right; `true` is "pixel set". -/
abbrev Display := Vector (Vector Bool 64) 32

/-- The state record of R20, then the model's own fields: the configuration and the random-byte input. -/
@[ext]
structure State where
  /-- `MEM` (R20, R50). -/
  mem : Memory
  /-- `V[0x0]` to `V[0xF]` (R21). -/
  v : Vector Byte 16
  /-- `I` (R29). -/
  i : Word
  /-- `PC` (R25). -/
  pc : Word
  /-- `STACK[0]` to `STACK[15]` (R30). -/
  stack : Vector Word 16
  /-- `SP`, the number of stack entries in use, 0 to 16 (R30). -/
  sp : Fin 17
  /-- `DISP` (R34). -/
  disp : Display
  /-- `KEY[0x0]` to `KEY[0xF]`, `true` meaning pressed (R35). -/
  key : Vector Bool 16
  /-- `DT` (R32). -/
  dt : Byte
  /-- `ST` (R33). -/
  st : Byte
  /-- `HALT` (R37): `none`, or the fatal outcome that halted the block. -/
  halt : Option Fatal
  /-- MODEL'S OWN: the parameters of R5 this machine was built with; nothing changes them. Log entry 1. -/
  cfg : Config
  /-- MODEL'S OWN: the random byte of the `cycle(rnd)` transaction under way (R7); `none` where the run does not say
  which byte the host gives, and the byte is then free. Log entry 2. -/
  rndIn : Option Byte
  /-- MODEL'S OWN: how many free random bytes have been taken, the argument of `Config.rndByte`. Log entry 2. -/
  rndCount : Nat
  deriving DecidableEq, Repr

/-- What a cycle gives back (R7, R101): the state after it and its two outputs. -/
structure CycleResult where
  state : State
  outcome : CycleOutcome
  /-- The tone output (R110). -/
  tone : Bool
  deriving DecidableEq, Repr

/-- The state at construction with parameters `c` (R39 column "at construction", R270). -/
def State.constructed (c : Config) : State where
  mem := []
  v := Vector.replicate 16 0
  i := 0
  pc := Params.programBase
  stack := Vector.replicate 16 0
  sp := 0
  disp := Vector.replicate 32 (Vector.replicate 64 false)
  key := Vector.replicate 16 false
  dt := 0
  st := 0
  halt := none
  cfg := c
  rndIn := none
  rndCount := 0

/-- The machine right after reset: construction (R270) with the default parameters (R5). No program is loaded: see log
entry 5. -/
def State.reset : State := State.constructed Params.default

end Sys2Proof.Machine
end

