-- ==== Sys2Proof/Machine/Ops.lean ====
section
/-! DEFINITION. The named operations over memory, registers, stack and display that the meanings share, and entering the
halted state. -/

namespace Sys2Proof.Machine

/-- What a meaning, and a step, answers. -/
abbrev Result := Host.Outcome State Fault Refusal

/-! ### Memory -/

/-- What an address holds after construction, and so what an unlisted address reads as: the font bytes at 0x000 to
0x04F, 0 everywhere else (R39, R51). -/
def Memory.background (c : Config) (a : Nat) : Byte :=
  if h : a < 80 then c.font[a] else 0

/-- The listed byte of an address, if it has one. -/
def Memory.lookup : Memory → Nat → Option Byte
  | [], _ => none
  | (b, u) :: m, a => if a = b then some u else Memory.lookup m a

/-- The byte at an address. -/
def Memory.read (c : Config) (m : Memory) (a : Nat) : Byte :=
  (Memory.lookup m a).getD (Memory.background c a)

/-- A memory with every cell of an address taken out. -/
def Memory.erase (m : Memory) (a : Nat) : Memory := m.filter fun e => decide (e.1 ≠ a)

/-- A cell put in before the first one with a higher address. -/
def Memory.insert : Memory → Nat → Byte → Memory
  | [], a, u => [(a, u)]
  | (b, t) :: m, a, u => if a < b then (a, u) :: (b, t) :: m else (b, t) :: Memory.insert m a u

/-- Writing one byte. A byte equal to what an unlisted address reads as leaves the address unlisted, so that equal
memories are equal data. -/
def Memory.write (c : Config) (m : Memory) (a : Nat) (u : Byte) : Memory :=
  if u = Memory.background c a then Memory.erase m a else Memory.insert (Memory.erase m a) a u

/-- Writing bytes at consecutive addresses from `a` on, in order. -/
def Memory.writes (c : Config) (m : Memory) (a : Nat) : List Byte → Memory
  | [] => m
  | u :: us => Memory.writes c (Memory.write c m a u) (a + 1) us

/-- The canonical form: addresses strictly rising and below `MEM_SIZE`, and no cell at its background value. -/
def Memory.wf (c : Config) : Memory → Bool
  | [] => true
  | (a, u) :: m =>
    decide (a < c.memSize) && decide (u ≠ Memory.background c a) && m.all (fun e => decide (a < e.1)) && Memory.wf c m

/-- `MemRead(a, 1)` for an address that has passed the bounds check (R12). -/
def State.peek (s : State) (a : Nat) : Byte := Memory.read s.cfg s.mem a

/-- `MemWrite(a, 1, u)` for an address that has passed the bounds check (R12). -/
def State.poke (s : State) (a : Nat) (u : Byte) : State := { s with mem := Memory.write s.cfg s.mem a u }

/-- Bytes stored at consecutive addresses from `a` on. -/
def State.pokes (s : State) (a : Nat) (us : List Byte) : State := { s with mem := Memory.writes s.cfg s.mem a us }

/-- The bounds check of R56 over the `n` consecutive addresses from `a`: the first one that is outside memory, lowest
address first, is the info of the fatal outcome. -/
def State.checkRange (s : State) (a n : Nat) : Except Fatal Unit :=
  match (List.range' a n).find? (fun b => decide (s.cfg.memSize ≤ b)) with
  | some b => .error (.memoryBounds b)
  | none => .ok ()

/-! ### Registers -/

/-- `V[x]`. -/
def State.reg (s : State) (x : Reg) : Byte := s.v[x.val]

/-- `V[x] <- u`. -/
def State.setReg (s : State) (x : Reg) (u : Byte) : State := { s with v := s.v.set x.val u x.isLt }

/-- `I <- a`. -/
def State.setIndex (s : State) (a : Word) : State := { s with i := a }

/-- `PC <- a`. -/
def State.setPc (s : State) (a : Word) : State := { s with pc := a }

/-- `DT <- u`. -/
def State.setDt (s : State) (u : Byte) : State := { s with dt := u }

/-- `ST <- u`. -/
def State.setSt (s : State) (u : Byte) : State := { s with st := u }

/-- "Advance PC": `PC <- (pc0 + 2) mod 65536` (R106). -/
def State.advance (s : State) : State := s.setPc (s.pc + 2)

/-- A skip: `PC <- (pc0 + 4) mod 65536` where the condition holds, else advance (R26). -/
def State.skipIf (s : State) (c : Bool) : State := s.setPc (if c then s.pc + 4 else s.pc + 2)

/-! ### Stack (R31) -/

/-- `Push(u)`. -/
def State.push (s : State) (u : Word) : Except Fatal State :=
  if h : s.sp.val < 16 then
    .ok { s with stack := s.stack.set s.sp.val u h, sp := ⟨s.sp.val + 1, by omega⟩ }
  else .error (.stackOverflow s.pc)

/-- `Pop()`: the popped address and the state after. The slot keeps its contents. -/
def State.pop (s : State) : Except Fatal (Word × State) :=
  if h : 0 < s.sp.val then
    .ok (s.stack[s.sp.val - 1]'(by omega), { s with sp := ⟨s.sp.val - 1, by omega⟩ })
  else .error (.stackUnderflow s.pc)

/-! ### Display (R34) -/

/-- A display cell: column, row. -/
abbrev Cell := Fin 64 × Fin 32

/-- A display with every cell clear. -/
def Display.clear : Display := Vector.replicate 32 (Vector.replicate 64 false)

/-- `DISP(x, y)`. -/
def Display.get (d : Display) (p : Cell) : Bool := d[p.2.val][p.1.val]

/-- `DISP(x, y) <- not DISP(x, y)`. -/
def Display.toggle (d : Display) (p : Cell) : Display :=
  d.set p.2.val (d[p.2.val].set p.1.val (!Display.get d p) p.1.isLt) p.2.isLt

/-- `DISP(x, y)` of a state. -/
def State.cell (s : State) (p : Cell) : Bool := Display.get s.disp p

/-- `DISP <- d`. -/
def State.setDisp (s : State) (d : Display) : State := { s with disp := d }

/-! ### Random byte -/

/-- The random byte of this cycle (R7, R170) and the state with it taken: the byte the `cycle(rnd)` transaction carries,
or, where none is named, a free value. -/
def State.takeRnd (s : State) : Byte × State :=
  match s.rndIn with
  | some b => (b, { s with rndIn := none })
  | none => (Config.rndByte s.rndCount, { s with rndCount := s.rndCount + 1 })

/-- The random byte that the transaction under way carries, or `none`. -/
def State.setRndIn (s : State) (o : Option Byte) : State := { s with rndIn := o }

/-! ### Fatal outcomes -/

/-- Entering the halted state: every field as at the start of the cycle, except `HALT`, which records the outcome (R13,
R245). There is no saved state and no handler address (R240), and no return but `reset()` (R248, `State.resetTx`). -/
def State.raiseFatal (s : State) (f : Fatal) : State := { s with halt := some f }

/-- How a meaning that may raise a fatal outcome ends: with its result, or, discarding every write, in the halted state
entered from the state `s` it began in (R101, R245). Either way there is a next state. -/
def State.commit (s : State) : Except Fatal State → Result
  | .ok t => .next t
  | .error f => .next (s.raiseFatal f)

/-- The effect of the `reset()` transaction, the only way out of the halted state (R246, R271): memory outside the font
and `KEY` keep their contents. -/
def State.resetTx (s : State) : State :=
  { State.constructed s.cfg with
    mem := s.mem.filter (fun e => decide (Params.fontBase + Params.fontSize ≤ e.1))
    key := s.key
    rndIn := s.rndIn
    rndCount := s.rndCount }

end Sys2Proof.Machine
end

