-- ==== Sys2Proof/Machine/Flags.lean ====
section
/-! DEFINITION. The flag computations of the ALU and the result-and-flag write (R157, R159 to R163). -/

namespace Sys2Proof.Machine

/-- A flag as the byte written to `V[0xF]`. -/
def flagByte (f : Bool) : Byte := if f then 1 else 0

/-- Carry of an 8-bit addition (R159). -/
def carryOut (a b : Byte) : Bool := decide (a.toNat + b.toNat > 255)

/-- The flag of the subtraction `a - b`: 0 where a borrow occurred (R160, R162). -/
def notBorrow (a b : Byte) : Bool := !decide (b.toNat > a.toNat)

/-- The bit a right shift drops (R161). -/
def lowBit (b : Byte) : Bool := b.getLsbD 0

/-- The bit a left shift drops (R163). -/
def highBit (b : Byte) : Bool := b.getLsbD 7

/-- `WriteRF(x, r, f)` (R157), by `FLAG_ORDER`; it ends with "advance". -/
def State.writeRF (s : State) (x : Reg) (r : Byte) (f : Bool) : State :=
  match s.cfg.flagOrder with
  | .flagLast => ((s.setReg x r).setReg flagReg (flagByte f)).advance
  | .resultLast => ((s.setReg flagReg (flagByte f)).setReg x r).advance

end Sys2Proof.Machine
end

