-- ==== Sys2Proof/Machine/Alu.lean ====
section
/-! DEFINITION. Register loads, moves, logic, arithmetic, shifts and the random byte (42_alu.md). -/

namespace Sys2Proof.Machine

/-- LD Vx, nn (R151). -/
def execLdImm (x : Reg) (nn : Byte) (s : State) : Result :=
  .next (s.setReg x nn).advance

/-- ADD Vx, nn, no flag (R152). -/
def execAddImm (x : Reg) (nn : Byte) (s : State) : Result :=
  .next (s.setReg x (s.reg x + nn)).advance

/-- LD Vx, Vy (R153). -/
def execLdReg (x y : Reg) (s : State) : Result :=
  .next (s.setReg x (s.reg y)).advance

/-- OR Vx, Vy, no flag (R154, R158). -/
def execOrReg (x y : Reg) (s : State) : Result :=
  .next (s.setReg x (s.reg x ||| s.reg y)).advance

/-- AND Vx, Vy, no flag (R155, R158). -/
def execAndReg (x y : Reg) (s : State) : Result :=
  .next (s.setReg x (s.reg x &&& s.reg y)).advance

/-- XOR Vx, Vy, no flag (R156, R158). -/
def execXorReg (x y : Reg) (s : State) : Result :=
  .next (s.setReg x (s.reg x ^^^ s.reg y)).advance

/-- ADD Vx, Vy with carry (R159). -/
def execAddReg (x y : Reg) (s : State) : Result :=
  .next (s.writeRF x (s.reg x + s.reg y) (carryOut (s.reg x) (s.reg y)))

/-- SUB Vx, Vy (R160). -/
def execSub (x y : Reg) (s : State) : Result :=
  .next (s.writeRF x (s.reg x - s.reg y) (notBorrow (s.reg x) (s.reg y)))

/-- SHR Vx, Vy: shifts `V[y]` into `V[x]` (R161). -/
def execShr (x y : Reg) (s : State) : Result :=
  .next (s.writeRF x (s.reg y >>> 1) (lowBit (s.reg y)))

/-- SUBN Vx, Vy (R162). -/
def execSubn (x y : Reg) (s : State) : Result :=
  .next (s.writeRF x (s.reg y - s.reg x) (notBorrow (s.reg y) (s.reg x)))

/-- SHL Vx, Vy: shifts `V[y]` into `V[x]` (R163). -/
def execShl (x y : Reg) (s : State) : Result :=
  .next (s.writeRF x (s.reg y <<< 1) (highBit (s.reg y)))

/-- RND Vx, nn (R170). -/
def execRnd (x : Reg) (nn : Byte) (s : State) : Result :=
  .next (s.takeRnd.2.setReg x (s.takeRnd.1 &&& nn)).advance

end Sys2Proof.Machine
end

