-- ==== Sys2Proof/Machine/Operands.lean ====
section
/-! DEFINITION. The operand forms: addresses and values that instructions compute from their fields and the state. -/

namespace Sys2Proof.Machine

/-- An address field as a 16-bit value, zero-extended (R83). -/
def addrOf (nnn : Addr12) : Word := nnn.setWidth 16

/-- The target of JP V0, nnn: `(nnn + V[0x0]) mod 65536`, not masked to 12 bits (R137). -/
def State.offsetTarget (s : State) (nnn : Addr12) : Word :=
  BitVec.ofNat 16 (nnn.toNat + (s.reg 0).toNat)

/-- `I` after ADD I, Vx: `(I + V[x]) mod 4096` (R181). -/
def State.indexSum (s : State) (x : Reg) : Word :=
  BitVec.ofNat 16 ((s.i.toNat + (s.reg x).toNat) % 4096)

/-- The address LD F, Vx puts into `I`, by `FONT_ADDR_MODE` (R182). -/
def State.fontAddr (s : State) (x : Reg) : Word :=
  match s.cfg.fontAddrMode with
  | .mod5 => BitVec.ofNat 16 ((s.reg x).toNat % 5)
  | .glyph => BitVec.ofNat 16 (Params.fontBase + (s.reg x).toNat % 16 * 5)

/-- The decimal digits of a byte, hundreds first (R183). -/
def decimalDigits (u : Byte) : List Byte :=
  [BitVec.ofNat 8 (u.toNat / 100), BitVec.ofNat 8 (u.toNat / 10 % 10), BitVec.ofNat 8 (u.toNat % 10)]

/-- The first address of LD [I], Vx and LD Vx, [I], an unbounded integer, by `REGRANGE_MODE` (R184, R185, R55). -/
def State.rangeBase (s : State) : Nat :=
  match s.cfg.regRangeMode with
  | .preincrement => s.i.toNat + 1
  | .standard => s.i.toNat

/-- `I` after a register-range transfer: `(I + x + 1) mod 65536` (R184, R185). -/
def State.indexAfterRange (s : State) (x : Reg) : Word :=
  BitVec.ofNat 16 (s.i.toNat + x.val + 1)

/-- `V[0]` to `V[x]`. -/
def State.regsUpTo (s : State) (x : Reg) : List Byte := s.v.toList.take (x.val + 1)

/-- `V[0]` to `V[x]` loaded from the consecutive addresses from `base` on, the other registers kept. -/
def State.loadRegs (s : State) (x : Reg) (base : Nat) : State :=
  { s with v := Vector.ofFn fun j : Fin 16 => if j ≤ x then s.peek (base + j.val) else s.v[j.val] }

/-- `KeyAt(u)`, by `KEY_INDEX_POLICY` (R226). -/
def State.keyAt (s : State) (u : Byte) : Except Fatal Bool :=
  if h : u.toNat < 16 then .ok s.key[u.toNat]
  else match s.cfg.keyIndexPolicy with
    | .fault => .error (.keyIndexRange u)
    | .mask => .ok (s.key[u.toNat % 16]'(by omega))

/-- The last pressed key of an ascending scan from 0 to 15, if any key is pressed (R223). -/
def State.lastPressed (s : State) : Option Reg :=
  (List.finRange 16).foldl (fun last k => if s.key[k.val] then some k else last) none

/-- Bit `7 - c` of a sprite byte is the pixel of column `c` (R201). -/
def spritePixel (b : Byte) (c : Nat) : Bool := b.getLsbD (7 - c)

/-- The display cell that sprite pixel `(c, r)` lands on, wrapping on both axes (R202). -/
def wrapCell (x0 y0 : Byte) (c r : Nat) : Cell :=
  (Fin.ofNat 64 (x0.toNat + c), Fin.ofNat 32 (y0.toNat + r))

/-- The cells that row `r` of a sprite toggles, left to right. -/
def rowCells (x0 y0 b : Byte) (r : Nat) : List Cell :=
  ((List.range 8).filter (spritePixel b)).map fun c => wrapCell x0 y0 c r

/-- The cells that an `n`-row sprite at `I` toggles, in the order of R203's loops. -/
def State.spriteCells (s : State) (x0 y0 : Byte) (n : Nat) : List Cell :=
  (List.range n).flatMap fun r => rowCells x0 y0 (s.peek (s.i.toNat + r)) r

/-- The body of R203's inner loop: note a collision, then toggle. -/
def drawPixel (acc : Display × Bool) (p : Cell) : Display × Bool :=
  (Display.toggle acc.1 p, acc.2 || Display.get acc.1 p)

/-- The display after a sprite's cells are toggled one after the other, and whether any of them was set (R203). -/
def drawCells (d : Display) (ps : List Cell) : Display × Bool :=
  ps.foldl drawPixel (d, false)

end Sys2Proof.Machine
end

