-- ==== Sys2Proof/Machine/Control.lean ====
section
/-! DEFINITION. Return, jumps, call and the register skips (41_control_flow.md). -/

namespace Sys2Proof.Machine

/-- RET: `PC` is the popped address plus 2 (R130). -/
def execRet (s : State) : Result :=
  s.commit (s.pop.map fun p => p.2.setPc (p.1 + 2))

/-- JP nnn (R131). -/
def execJp (nnn : Addr12) (s : State) : Result :=
  .next (s.setPc (addrOf nnn))

/-- CALL nnn: pushes its own address (R132). -/
def execCall (nnn : Addr12) (s : State) : Result :=
  s.commit ((s.push s.pc).map fun t => t.setPc (addrOf nnn))

/-- SE Vx, nn (R133). -/
def execSeImm (x : Reg) (nn : Byte) (s : State) : Result :=
  .next (s.skipIf (decide (s.reg x = nn)))

/-- SNE Vx, nn (R134). -/
def execSneImm (x : Reg) (nn : Byte) (s : State) : Result :=
  .next (s.skipIf (decide (s.reg x ≠ nn)))

/-- SE Vx, Vy, by `SE_REG_MODE` (R135). -/
def execSeReg (x y : Reg) (s : State) : Result :=
  match s.cfg.seRegMode with
  | .standard => .next (s.skipIf (decide (s.reg x = s.reg y)))
  | .handlerOnly => .next (if s.reg x = s.reg y then s.advance else s)

/-- SNE Vx, Vy, the same in every parameter setting (R136). -/
def execSneReg (x y : Reg) (s : State) : Result :=
  .next (s.skipIf (decide (s.reg x ≠ s.reg y)))

/-- JP V0, nnn (R137). -/
def execJpV0 (nnn : Addr12) (s : State) : Result :=
  .next (s.setPc (s.offsetTarget nnn))

end Sys2Proof.Machine
end

