-- ==== Sys2Proof/Machine/DisplayOps.lean ====
section
/-! DEFINITION. The display-buffer controller's two instructions (44_display.md). -/

namespace Sys2Proof.Machine

/-- CLS (R200). -/
def execCls (s : State) : Result :=
  .next (s.setDisp Display.clear).advance

/-- DRW Vx, Vy, n: the rows are checked first; the flag is written after every pixel (R203). -/
def execDrw (x y : Reg) (n : Nat) (s : State) : Result :=
  s.commit ((s.checkRange s.i.toNat n).map fun _ =>
    let d := drawCells s.disp (s.spriteCells (s.reg x) (s.reg y) n)
    ((s.setDisp d.1).setReg flagReg (flagByte d.2)).advance)

end Sys2Proof.Machine
end

