-- ==== Sys2Proof/Machine/IndexMem.lean ====
section
/-! DEFINITION. The index register and memory transfers (43_index_memory.md). -/

namespace Sys2Proof.Machine

/-- LD I, nnn (R180). -/
def execLdI (nnn : Addr12) (s : State) : Result :=
  .next (s.setIndex (addrOf nnn)).advance

/-- ADD I, Vx, modulo 4096 (R181). -/
def execAddIVx (x : Reg) (s : State) : Result :=
  .next (s.setIndex (s.indexSum x)).advance

/-- LD F, Vx (R182). -/
def execLdFVx (x : Reg) (s : State) : Result :=
  .next (s.setIndex (s.fontAddr x)).advance

/-- LD B, Vx: the three decimal digits at `I`, `I + 1`, `I + 2` (R183). -/
def execLdBVx (x : Reg) (s : State) : Result :=
  s.commit ((s.checkRange s.i.toNat 3).map fun _ =>
    (s.pokes s.i.toNat (decimalDigits (s.reg x))).advance)

/-- LD [I], Vx (R184). -/
def execLdMemVx (x : Reg) (s : State) : Result :=
  s.commit ((s.checkRange s.rangeBase (x.val + 1)).map fun _ =>
    ((s.pokes s.rangeBase (s.regsUpTo x)).setIndex (s.indexAfterRange x)).advance)

/-- LD Vx, [I] (R185). -/
def execLdVxMem (x : Reg) (s : State) : Result :=
  s.commit ((s.checkRange s.rangeBase (x.val + 1)).map fun _ =>
    ((s.loadRegs x s.rangeBase).setIndex (s.indexAfterRange x)).advance)

end Sys2Proof.Machine
end

