-- ==== Sys2Proof/Machine/KeysTimers.lean ====
section
/-! DEFINITION. Keypad and timer instructions, and the end-of-cycle housekeeping (45_keys_timers.md). -/

namespace Sys2Proof.Machine

/-- SKP Vx (R220). -/
def execSkp (x : Reg) (s : State) : Result :=
  s.commit ((s.keyAt (s.reg x)).map fun b => s.skipIf b)

/-- SKNP Vx (R221). -/
def execSknp (x : Reg) (s : State) : Result :=
  s.commit ((s.keyAt (s.reg x)).map fun b => s.skipIf (!b))

/-- LD Vx, DT: the value before this cycle's decrement (R222). -/
def execLdVxDt (x : Reg) (s : State) : Result :=
  .next (s.setReg x s.dt).advance

/-- LD Vx, K: with no key pressed `PC` stays, and the next cycle polls again (R223). -/
def execLdVxK (x : Reg) (s : State) : Result :=
  match s.lastPressed with
  | some k => .next (s.setReg x (BitVec.ofNat 8 k.val)).advance
  | none => .next s

/-- LD DT, Vx (R224). -/
def execLdDtVx (x : Reg) (s : State) : Result :=
  .next (s.setDt (s.reg x)).advance

/-- LD ST, Vx (R225). -/
def execLdStVx (x : Reg) (s : State) : Result :=
  .next (s.setSt (s.reg x)).advance

/-- A countdown unit's value after one cycle: one less, not below 0 (R230, R232). -/
def countDown (u : Byte) : Byte := if u = 0 then 0 else u - 1

/-- The tone of a cycle: the sound timer before the decrement is exactly 1 (R232). -/
def State.toneNow (s : State) : Bool := decide (s.st = 1)

/-- `Housekeeping()`: the state after it (R232). -/
def State.housekeeping (s : State) : State := (s.setDt (countDown s.dt)).setSt (countDown s.st)

end Sys2Proof.Machine
end

