-- ==== Sys2Proof/Machine/Cycle.lean ====
section
/-! DEFINITION. The cycle: fetch, decode, dispatch, housekeeping, with its outputs (40_cycle.md). -/

namespace Sys2Proof.Machine

/-- `Fetch(pc0)` (R102): both byte addresses are checked, then the word is read big-endian (R52). `PC + 1` is not
reduced. -/
def State.fetch (s : State) : Except Fatal Word :=
  if s.cfg.memSize ≤ s.pc.toNat then .error (.memoryBounds s.pc.toNat)
  else if s.cfg.memSize ≤ s.pc.toNat + 1 then .error (.memoryBounds (s.pc.toNat + 1))
  else .ok (wordOfBytes (s.peek s.pc.toNat) (s.peek (s.pc.toNat + 1)))

/-- The instruction the next cycle executes, if the fetch succeeds and the word is an instruction. -/
def State.current (s : State) : Option Instr :=
  match s.fetch with
  | .ok w => (decodeWord w).toOption
  | .error _ => none

/-- What an unknown word does to `PC`, by `UNKNOWN_POLICY` (R108). -/
def State.skipUnknown (s : State) : State :=
  match s.cfg.unknownPolicy with
  | .advance => s.advance
  | .stall => s

/-- The end of a cycle that raised no fatal outcome (R101, R109). -/
def State.endCycle (s : State) (o : CycleOutcome) : CycleResult :=
  { state := s.housekeeping, outcome := o, tone := s.toneNow }

/-- The end of a cycle whose outcome is fatal, and every cycle while halted: no housekeeping, no tone (R101, R245, R246). -/
def State.endFatal (s : State) (f : Fatal) : CycleResult :=
  { state := s, outcome := .fatal f, tone := false }

/-- The end of the execute stage: fatal where the handler entered the halted state, else the housekeeping. -/
def State.endExec (t : State) : CycleResult :=
  match t.halt with
  | some f => t.endFatal f
  | none => t.endCycle .ok

/-- One cycle, in full (R101), in the priority of R247: halted, fetch, decode, execute. The cycle's random byte is what
`State.takeRnd` gives. -/
def runCycle (s : State) : Host.Outcome CycleResult Fault Refusal :=
  match s.halt with
  | some f => .next (s.endFatal f)
  | none =>
    match s.fetch with
    | .error f => .next ((s.raiseFatal f).endFatal f)
    | .ok w =>
      match decodeWord w with
      | .error _ => .next (s.skipUnknown.endCycle (.unknownInstruction w))
      | .ok i =>
        match exec i s with
        | .next t => .next t.endExec
        | .fault r => .fault r
        | .refused r => .refused r

/-- The state part of a cycle's answer. -/
def stateOf : Host.Outcome CycleResult Fault Refusal → Host.Outcome State Fault Refusal
  | .next r => .next r.state
  | .fault r => .fault r
  | .refused r => .refused r

/-- Storing an instruction word, given in the opcode table's bit numbering, where the next cycle fetches it. The next
cycle fetches only while not halted and only from a `PC` whose two bytes are in memory, so `HALT` is cleared, and a `PC`
that cannot be fetched from is first set to `PROGRAM_BASE`; nothing else changes. -/
def State.placeWord (s : State) (nbits w : Nat) : State :=
  let pc := if s.pc.toNat + 1 < s.cfg.memSize then s.pc else Params.programBase
  (({ s with pc := pc, halt := none }.poke pc.toNat (highByte (tableWord nbits w))).poke
    (pc.toNat + 1) (lowByte (tableWord nbits w)))

/-- The numeric code of an outcome (R241, the column "code"). -/
def CycleOutcome.code : CycleOutcome → Nat
  | .ok => 0
  | .unknownInstruction _ => 1
  | .fatal (.stackOverflow _) => 2
  | .fatal (.stackUnderflow _) => 3
  | .fatal (.memoryBounds _) => 4
  | .fatal (.keyIndexRange _) => 5

end Sys2Proof.Machine
end

