-- ==== Sys2Proof/Machine/Step.lean ====
section
/-! DEFINITION. One step: one cycle, seen as a step of the state, and the placing of a word where it is fetched. -/

namespace Sys2Proof.Machine

/-- One step is one `cycle` transaction (R100), its outputs dropped: a next state, always, since a fatal outcome enters
the halted state and a halted cycle changes nothing. The outputs are `runCycle`'s. -/
def step (s : State) : Host.Outcome State Fault Refusal := stateOf (runCycle s)

/-- `s` with an instruction word, in the opcode table's bit numbering, where the next step fetches it. -/
def State.withFetchWord (s : State) (nbits w : Nat) : State := s.placeWord nbits w

end Sys2Proof.Machine
end

