-- ==== Sys2Proof/Machine/Transactions.lean ====
section
/-! DEFINITION. The host's transactions of R7. Each is a function of the state, applied between cycles (R280); `reset()`
is `State.resetTx` (Sys2Proof/Machine/Ops.lean). -/

namespace Sys2Proof.Machine

/-- `cycle(rnd)` (R7): one cycle whose random byte is `rnd`. The byte is the cycle's alone: it is not kept after it. -/
def State.cycle (s : State) (rnd : Byte) : Host.Outcome CycleResult Fault Refusal :=
  match runCycle (s.setRndIn (some rnd)) with
  | .next r => .next { r with state := r.state.setRndIn none }
  | .fault e => .fault e
  | .refused e => .refused e

/-- `set_keys(k)`: bit `i` of `k` is `KEY[i]`; the whole vector is replaced (R7). -/
def State.setKeys (s : State) (k : Word) : State :=
  { s with key := Vector.ofFn fun j : Fin 16 => k.getLsbD j.val }

/-- `read_display()`: the whole grid; it writes nothing (R7, R199). -/
def State.readDisplay (s : State) : Display := s.disp

/-- What `load` answers (R60, R244). -/
inductive LoadAnswer where
  | ok
  | loadError
  deriving DecidableEq, Repr

/-- `load(bytes)` (R60, R61): the bytes go to `PROGRAM_BASE` on, or, where they would pass the end of memory, none does. -/
def State.load (s : State) (bytes : List Byte) : State × LoadAnswer :=
  if Params.programBase.toNat + bytes.length ≤ s.cfg.memSize then
    (s.pokes Params.programBase.toNat bytes, .ok)
  else (s, .loadError)

end Sys2Proof.Machine
end

