-- ==== Sys2Proof/Safety.lean ====
section
/-! DEFINITION. The terms in which claims are stated: frames, the shapes of an instruction's effect, the writers of each
part of the state, the invariants, and traces of cycles. -/

namespace Sys2Proof.Machine

/-! ### Frames -/

/-- The parts of the state record (R20), and the model's own fields. -/
inductive Part where
  | mem | regs | index | pc | stack | sp | display | keys | dt | st | halt | config | random
  deriving DecidableEq, Repr

/-- The part is the same in both states; memory through the read of one byte, the display through one cell. -/
def Part.Same : Part → State → State → Prop
  | .mem, s, t => ∀ a, t.peek a = s.peek a
  | .regs, s, t => ∀ x, t.reg x = s.reg x
  | .index, s, t => t.i = s.i
  | .pc, s, t => t.pc = s.pc
  | .stack, s, t => ∀ k : Fin 16, t.stack[k] = s.stack[k]
  | .sp, s, t => t.sp = s.sp
  | .display, s, t => ∀ p, t.cell p = s.cell p
  | .keys, s, t => ∀ k : Fin 16, t.key[k] = s.key[k]
  | .dt, s, t => t.dt = s.dt
  | .st, s, t => t.st = s.st
  | .halt, s, t => t.halt = s.halt
  | .config, s, t => t.cfg = s.cfg
  | .random, s, t => t.rndIn = s.rndIn ∧ t.rndCount = s.rndCount

/-- Every part of the state outside `ps` is unchanged. -/
def KeepsBut (ps : List Part) (s t : State) : Prop := ∀ p, p ∉ ps → p.Same s t

/-- Every general register outside `xs` is unchanged. -/
def KeepsRegsBut (xs : List Reg) (s t : State) : Prop := ∀ x, x ∉ xs → t.reg x = s.reg x

/-- Every memory byte outside the `n` bytes from `a` on is unchanged. -/
def KeepsBytesBut (a n : Nat) (s t : State) : Prop := ∀ b, b < a ∨ a + n ≤ b → t.peek b = s.peek b

/-- `PC = (pc0 + k) mod 65536`. -/
def PcAdds (k : Nat) (s t : State) : Prop := t.pc.toNat = (s.pc.toNat + k) % 65536

/-! ### Shapes of an instruction's effect

Each says that `exec` answers a next state, in every state, what that state is, and that nothing else changed. -/

/-- The instruction writes the value `val` to register `x` and advances. -/
def WritesRegister (i : Instr) (x : Reg) (val : State → Int) : Prop :=
  ∀ s, ∃ t, exec i s = .next t ∧ ((t.reg x).toNat : Int) = val s ∧ PcAdds 2 s t ∧
    KeepsRegsBut [x] s t ∧ KeepsBut [.regs, .pc] s t

/-- The instruction writes the result `r` to register `x` and the flag `f` to `V[0xF]`, in the order `FLAG_ORDER` says,
and advances (R157). -/
def WritesResultAndFlag (i : Instr) (x : Reg) (r f : State → Int) : Prop :=
  ∀ s, ∃ t, exec i s = .next t ∧ PcAdds 2 s t ∧
    (x ≠ flagReg → ((t.reg x).toNat : Int) = r s ∧ ((t.reg flagReg).toNat : Int) = f s) ∧
    (x = flagReg → s.cfg.flagOrder = .flagLast → ((t.reg flagReg).toNat : Int) = f s) ∧
    (x = flagReg → s.cfg.flagOrder = .resultLast → ((t.reg flagReg).toNat : Int) = r s) ∧
    KeepsRegsBut [x, flagReg] s t ∧ KeepsBut [.regs, .pc] s t

/-- The instruction skips where `c` holds, else advances, and does nothing else. -/
def SkipsWhen (i : Instr) (c : State → Prop) : Prop :=
  ∀ s, ∃ t, exec i s = .next t ∧ (c s → PcAdds 4 s t) ∧ (¬ c s → PcAdds 2 s t) ∧ KeepsBut [.pc] s t

/-- The instruction writes the value `val` to `I` and advances. -/
def WritesIndex (i : Instr) (val : State → Nat) : Prop :=
  ∀ s, ∃ t, exec i s = .next t ∧ t.i.toNat = val s ∧ PcAdds 2 s t ∧ KeepsBut [.index, .pc] s t

/-- The instruction enters the halted state with the outcome `f`, and changes nothing but `HALT` (R245). -/
def Halts (i : Instr) (s : State) (f : Fatal) : Prop := exec i s = .next { s with halt := some f }

/-- The words that match under the mask are exactly those that decode to the operation (R85). -/
def HasRow (o : Op) (mask value : Word) : Prop :=
  ∀ w, w &&& mask = value ↔ ∃ i, decodeWord w = .ok i ∧ i.op = o

/-- The cell `p` is under a set pixel of the `n`-row sprite at `I`, drawn at origin `(x0, y0)` (R201, R202). -/
def SpriteCovers (s : State) (x0 y0 : Byte) (n : Nat) (p : Cell) : Prop :=
  ∃ r c, r < n ∧ c < 8 ∧ (s.peek (s.i.toNat + r)).toNat / 2 ^ (7 - c) % 2 = 1 ∧
    p.1.val = (x0.toNat + c) % 64 ∧ p.2.val = (y0.toNat + r) % 32

/-! ### Writers (R22, R23, R29, R30, R32 to R35, R54) -/

/-- The operations that may change a part of the state, `PC` and `HALT` apart. -/
def Part.writers : Part → List Op
  | .mem => [.ldBVx, .ldMemVx]
  | .regs => [.ldImm, .addImm, .ldReg, .orReg, .andReg, .xorReg, .addReg, .sub, .shr, .subn, .shl, .rnd, .drw, .ldVxDt,
      .ldVxK, .ldVxMem]
  | .index => [.ldI, .addIVx, .ldFVx, .ldMemVx, .ldVxMem]
  | .stack => [.call]
  | .sp => [.call, .ret]
  | .display => [.cls, .drw]
  | .keys => []
  | .dt => [.ldDtVx]
  | .st => [.ldStVx]
  | .config => []
  | .random => [.rnd]
  | .pc => []
  | .halt => []

/-- The column "writes" of R23: the general registers an instruction may change. -/
def writesRegs : Instr → List Reg
  | .ldImm x _ | .addImm x _ | .rnd x _ => [x]
  | .ldReg x _ | .orReg x _ | .andReg x _ | .xorReg x _ => [x]
  | .addReg x _ | .sub x _ | .shr x _ | .subn x _ | .shl x _ => [x, flagReg]
  | .drw _ _ _ => [flagReg]
  | .ldVxDt x | .ldVxK x => [x]
  | .ldVxMem x => (List.finRange 16).filter (fun j => decide (j ≤ x))
  | .cls | .ret | .jp _ | .call _ | .seImm _ _ | .sneImm _ _ | .seReg _ _ | .sneReg _ _ | .ldI _ | .jpV0 _ => []
  | .skp _ | .sknp _ | .ldDtVx _ | .ldStVx _ | .addIVx _ | .ldFVx _ | .ldBVx _ | .ldMemVx _ => []

/-- The kinds of fatal outcome an instruction may raise (R241, R242). -/
def MayRaise : Instr → Fatal → Prop
  | .call _, .stackOverflow _ => True
  | .ret, .stackUnderflow _ => True
  | .drw _ _ _, .memoryBounds _ => True
  | .ldBVx _, .memoryBounds _ => True
  | .ldMemVx _, .memoryBounds _ => True
  | .ldVxMem _, .memoryBounds _ => True
  | .skp _, .keyIndexRange _ => True
  | .sknp _, .keyIndexRange _ => True
  | _, _ => False

/-! ### Invariants -/

/-- Memory is in its canonical form. -/
def State.MemOk (s : State) : Prop := Memory.wf s.cfg s.mem = true

/-- What R27, R29 and R130 say always holds from reset with `MEM_SIZE` = 4095: `I` is at most 0xFFF, `PC` at most 0x10FE,
and every stack entry in use is the address of a fetched CALL, at most 0xFFD. -/
structure State.Bounded (s : State) : Prop where
  index : s.i.toNat ≤ 0xFFF
  pc : s.pc.toNat ≤ 0x10FE
  ret : ∀ k : Fin 16, k.val < s.sp.val → (s.stack[k]).toNat ≤ 0xFFD

/-! ### Runs -/

/-- A safe cycle is one whose outcome is not fatal (R241). -/
def CycleOutcome.isFatal : CycleOutcome → Bool
  | .ok => false
  | .unknownInstruction _ => false
  | .fatal _ => true

/-- `k` consecutive cycles: cycle `j` takes state `σ j` to the result `ρ j`, and before the next one the host may set the
keys and the random byte (R7, R280). -/
def CycleTrace (σ : Nat → State) (ρ : Nat → CycleResult) (k : Nat) : Prop :=
  ∀ j, j < k → runCycle (σ j) = .next (ρ j) ∧
    ∃ keys rnd, σ (j + 1) = { (ρ j).state with key := keys, rndIn := rnd }

/-- A safe trace: no cycle of it is fatal, and none executes an instruction of operation `o`. -/
def SafeTraceWithout (o : Op) (σ : Nat → State) (ρ : Nat → CycleResult) (k : Nat) : Prop :=
  CycleTrace σ ρ k ∧ ∀ j, j < k → (ρ j).outcome.isFatal = false ∧ ∀ i, (σ j).current = some i → i.op ≠ o

/-- The CALLs to the given targets, executed one after the other. -/
def callAll : List Addr12 → State → Result
  | [], s => .next s
  | a :: as, s =>
    match exec (.call a) s with
    | .next t => callAll as t
    | .fault r => .fault r
    | .refused r => .refused r

/-- `n` RETs, executed one after the other. -/
def retAll : Nat → State → Result
  | 0, s => .next s
  | n + 1, s =>
    match exec .ret s with
    | .next t => retAll n t
    | .fault r => .fault r
    | .refused r => .refused r

end Sys2Proof.Machine
end

