-- ==== Sys2Proof/Certificates/Slice0/Obligations.lean ====
section
/-! DEFINITION. The statements for the provers: what the numbered rules of the spec say the instructions and the machine
do, as propositions about the model. -/

open Sys2Proof Sys2Proof.Machine

/-! ### Encoding -/

/-- Words written out from the field layouts of R81 decode to the instructions they stand for (R84, R86). -/
def Obligations.SampleWordsDecode : Prop :=
  decodeWord 0x0FF0 = .ok .cls ∧ decodeWord 0x00EE = .ok .ret ∧ decodeWord 0x1ABC = .ok (.jp 0xABC) ∧
  decodeWord 0x5127 = .ok (.seReg 1 2) ∧ decodeWord 0x6042 = .ok (.ldImm 0 0x42) ∧
  decodeWord 0x8F14 = .ok (.addReg 0xF 1) ∧ decodeWord 0xC30F = .ok (.rnd 3 0x0F) ∧
  decodeWord 0xDF15 = .ok (.drw 0xF 1 5) ∧ decodeWord 0xE5A1 = .ok (.sknp 5) ∧ decodeWord 0xF265 = .ok (.ldVxMem 2) ∧
  decodeWord 0x8008 = .error (.unknown 0x8008)

/-- Decoding the encoding of a well-formed instruction gives it back, every operand at every value, whatever bytes
follow. Where the decoder ignores bits the encoding is the canonical one of R90 (log entry 13). -/
def Obligations.DecodeEncodeRoundTrip : Prop :=
  ∀ i : Instr, i.wf = true →
    decodeWord (encode i) = .ok i ∧ ∀ rest, decode (encodeBytes i ++ rest) = .ok (i, rest)

/-- R85: the opcode map, row by row. A word selects the row when `w & mask == match`, and no word selects two rows. -/
def Obligations.WordsSelectTheirTableRow : Prop :=
  (HasRow .cls 0xF00F 0x0000 ∧ HasRow .ret 0xF00F 0x000E ∧ HasRow .jp 0xF000 0x1000 ∧ HasRow .call 0xF000 0x2000 ∧
    HasRow .seImm 0xF000 0x3000 ∧ HasRow .sneImm 0xF000 0x4000 ∧ HasRow .seReg 0xF000 0x5000 ∧
    HasRow .ldImm 0xF000 0x6000 ∧ HasRow .addImm 0xF000 0x7000 ∧ HasRow .ldReg 0xF00F 0x8000 ∧
    HasRow .orReg 0xF00F 0x8001 ∧ HasRow .andReg 0xF00F 0x8002 ∧ HasRow .xorReg 0xF00F 0x8003 ∧
    HasRow .addReg 0xF00F 0x8004 ∧ HasRow .sub 0xF00F 0x8005 ∧ HasRow .shr 0xF00F 0x8006 ∧
    HasRow .subn 0xF00F 0x8007 ∧ HasRow .shl 0xF00F 0x800E ∧ HasRow .sneReg 0xF000 0x9000 ∧
    HasRow .ldI 0xF000 0xA000 ∧ HasRow .jpV0 0xF000 0xB000 ∧ HasRow .rnd 0xF000 0xC000 ∧ HasRow .drw 0xF000 0xD000 ∧
    HasRow .skp 0xF0FF 0xE09E ∧ HasRow .sknp 0xF0FF 0xE0A1 ∧ HasRow .ldVxDt 0xF0FF 0xF007 ∧
    HasRow .ldVxK 0xF0FF 0xF00A ∧ HasRow .ldDtVx 0xF0FF 0xF015 ∧ HasRow .ldStVx 0xF0FF 0xF018 ∧
    HasRow .addIVx 0xF0FF 0xF01E ∧ HasRow .ldFVx 0xF0FF 0xF029 ∧ HasRow .ldBVx 0xF0FF 0xF033 ∧
    HasRow .ldMemVx 0xF0FF 0xF055 ∧ HasRow .ldVxMem 0xF0FF 0xF065) ∧
  ∀ (w : Word) (o o' : Op), w &&& o.mask = o.value → w &&& o'.mask = o'.value → o = o'

/-- The conditions of R87: the words that are no instruction, family by family. -/
def Obligations.UnknownWordsAreExactlyTheListedOnes : Prop :=
  ∀ w : Word, decodeWord w = .error (.unknown w) ↔
    (w.toNat / 4096 = 0x0 ∧ w.toNat % 16 ∉ [0x0, 0xE]) ∨
    (w.toNat / 4096 = 0x8 ∧ w.toNat % 16 ∈ [0x8, 0x9, 0xA, 0xB, 0xC, 0xD, 0xF]) ∨
    (w.toNat / 4096 = 0xE ∧ w.toNat % 256 ∉ [0x9E, 0xA1]) ∨
    (w.toNat / 4096 = 0xF ∧ w.toNat % 256 ∉ [0x07, 0x0A, 0x15, 0x18, 0x1E, 0x29, 0x33, 0x55, 0x65])

/-- R82, R83: the operands of a decoded instruction are the fields of the word at the bit positions of R82, unsigned. -/
def Obligations.DecodedOperandsAreTheWordFields : Prop :=
  ∀ (w : Word) (i : Instr), decodeWord w = .ok i → i.wf = true ∧
    match i with
    | .cls | .ret => True
    | .jp nnn | .call nnn | .ldI nnn | .jpV0 nnn => nnn.toNat = w.toNat % 4096
    | .seImm x nn | .sneImm x nn | .ldImm x nn | .addImm x nn | .rnd x nn =>
      x.val = w.toNat / 256 % 16 ∧ nn.toNat = w.toNat % 256
    | .seReg x y | .sneReg x y | .ldReg x y | .orReg x y | .andReg x y | .xorReg x y | .addReg x y | .sub x y
    | .shr x y | .subn x y | .shl x y => x.val = w.toNat / 256 % 16 ∧ y.val = w.toNat / 16 % 16
    | .drw x y n => x.val = w.toNat / 256 % 16 ∧ y.val = w.toNat / 16 % 16 ∧ n = w.toNat % 16
    | .skp x | .sknp x | .ldVxDt x | .ldVxK x | .ldDtVx x | .ldStVx x | .addIVx x | .ldFVx x | .ldBVx x | .ldMemVx x
    | .ldVxMem x => x.val = w.toNat / 256 % 16

/-- R86: the decoder ignores bits 11..4 in family 0x0 and bits 3..0 in families 0x5 and 0x9; in every other family every
bit is an operand or a selector, so a word that is an instruction is the only spelling of it. -/
def Obligations.OnlyTheListedBitsAreIgnored : Prop :=
  (∀ w w' : Word, w.toNat / 4096 = 0 → w'.toNat / 4096 = 0 → w.toNat % 16 = w'.toNat % 16 →
    (decodeWord w).toOption = (decodeWord w').toOption) ∧
  (∀ w w' : Word, w.toNat / 4096 = 5 ∨ w.toNat / 4096 = 9 → w.toNat / 16 = w'.toNat / 16 →
    decodeWord w = decodeWord w' ∧ (decodeWord w).toOption ≠ none) ∧
  (∀ (w : Word) (i : Instr), w.toNat / 4096 ∉ [0, 5, 9] → decodeWord w = .ok i → encode i = w) ∧
  decodeWord 0x0120 = .ok .cls ∧ decodeWord 0x0FFE = .ok .ret ∧ decodeWord 0x5121 = .ok (.seReg 1 2) ∧
  decodeWord 0x0000 = .ok .cls

/-! ### The cycle -/

/-- R52, R102: the word fetched is big-endian; a `PC` with a byte outside memory gives `MemoryBounds` of the first such
address, `PC` first, and `PC + 1` is not reduced. -/
def Obligations.FetchIsBigEndianAndBounded : Prop :=
  ∀ s : State,
    (s.pc.toNat + 1 < s.cfg.memSize → ∃ w, s.fetch = .ok w ∧
      w.toNat = (s.peek s.pc.toNat).toNat * 256 + (s.peek (s.pc.toNat + 1)).toNat) ∧
    (s.cfg.memSize ≤ s.pc.toNat → s.fetch = .error (.memoryBounds s.pc.toNat)) ∧
    (s.pc.toNat < s.cfg.memSize → s.cfg.memSize ≤ s.pc.toNat + 1 → s.fetch = .error (.memoryBounds (s.pc.toNat + 1)))

/-- A step runs the decoded instruction: while not halted, when the word at `PC` decodes to `i`, the step is `exec i`,
followed by the housekeeping unless the instruction halted the block (R101, R104, R109). -/
def Obligations.StepRunsTheDecodedInstruction : Prop :=
  ∀ (s : State) (w : Word) (i : Instr) (t : State),
    s.halt = none → s.fetch = .ok w → decodeWord w = .ok i → exec i s = .next t →
    (t.halt = none → step s = .next t.housekeeping) ∧ (t.halt ≠ none → step s = .next t)

/-- R101: one cycle in full, with its outcome and its tone, case by case; a fatal outcome discards every write. -/
def Obligations.CycleFollowsItsStages : Prop :=
  ∀ s : State,
    (∀ f, s.halt = some f → runCycle s = .next { state := s, outcome := .fatal f, tone := false }) ∧
    (s.halt = none →
      (∀ f, s.fetch = .error f →
        runCycle s = .next { state := { s with halt := some f }, outcome := .fatal f, tone := false }) ∧
      (∀ w e, s.fetch = .ok w → decodeWord w = .error e → ∃ u, (s.cfg.unknownPolicy = .advance → PcAdds 2 s u) ∧
        (s.cfg.unknownPolicy = .stall → u.pc = s.pc) ∧ KeepsBut [.pc] s u ∧
        runCycle s = .next { state := u.housekeeping, outcome := .unknownInstruction w, tone := decide (u.st = 1) }) ∧
      (∀ w i t, s.fetch = .ok w → decodeWord w = .ok i → exec i s = .next t →
        (∀ f, t.halt = some f →
          runCycle s = .next { state := { s with halt := some f }, outcome := .fatal f, tone := false }) ∧
        (t.halt = none →
          runCycle s = .next { state := t.housekeeping, outcome := .ok, tone := decide (t.st = 1) })))

/-- R232: each timer is one less after the housekeeping, not below 0, the tone is the sound timer being 1 before it, and
nothing else changes. -/
def Obligations.HousekeepingCountsBothTimersDown : Prop :=
  ∀ s : State, s.housekeeping.dt.toNat = s.dt.toNat - 1 ∧ s.housekeeping.st.toNat = s.st.toNat - 1 ∧
    (s.toneNow = true ↔ s.st.toNat = 1) ∧ KeepsBut [.dt, .st] s s.housekeeping

/-- R108: an unknown word is not fatal, changes nothing but `PC`, which `UNKNOWN_POLICY` decides, and the housekeeping
still runs. -/
def Obligations.UnknownWordIsReportedAndSkipped : Prop :=
  ∀ (s : State) (w : Word), s.halt = none → s.fetch = .ok w → decodeWord w = .error (.unknown w) →
    ∃ r, runCycle s = .next r ∧ r.outcome = .unknownInstruction w ∧
      (s.cfg.unknownPolicy = .advance → PcAdds 2 s r.state) ∧ (s.cfg.unknownPolicy = .stall → r.state.pc = s.pc) ∧
      r.state.dt.toNat = s.dt.toNat - 1 ∧ r.state.st.toNat = s.st.toNat - 1 ∧ (r.tone = true ↔ s.st.toNat = 1) ∧
      KeepsBut [.pc, .dt, .st] s r.state

/-- R246: while `HALT` is not none, every cycle returns the recorded fatal outcome with no tone and changes no state;
`set_keys` still works, `read_display` still reads; `reset()` clears `HALT`, and no other transaction does. -/
def Obligations.HaltedBlockStaysHaltedUntilReset : Prop :=
  ∀ (s : State) (f : Fatal), s.halt = some f →
    runCycle s = .next { state := s, outcome := .fatal f, tone := false } ∧ step s = .next s ∧
    (∀ b, ∃ r, s.cycle b = .next r ∧ r.outcome = .fatal f ∧ r.tone = false ∧ KeepsBut [.random] s r.state) ∧
    (∀ k : Word, (s.setKeys k).halt = some f ∧ ∀ j : Fin 16, (s.setKeys k).key[j] = k.getLsbD j.val) ∧
    (∀ bytes, (s.load bytes).1.halt = some f) ∧
    (∀ p, Display.get s.readDisplay p = s.cell p) ∧ s.resetTx.halt = none

/-- R245: a fatal outcome is precise. The state after a cycle that raises one is the state before it in every field except
`HALT`, which holds the outcome reported, and the tone is false. -/
def Obligations.FatalOutcomesArePrecise : Prop :=
  ∀ (s : State) (r : CycleResult) (f : Fatal), s.halt = none → runCycle s = .next r → r.outcome = .fatal f →
    r.state = { s with halt := some f } ∧ r.tone = false

/-- Every cycle, and so every step, from every state answers a next state: every error is an outcome reported to the host
(R240), none stops the model. -/
def Obligations.EveryStepAnswersANextState : Prop :=
  ∀ s : State, (∃ r, runCycle s = .next r) ∧ ∃ t, step s = .next t

/-- R107, R7: the random byte has no effect on any state or output of a cycle whose instruction is not RND. -/
def Obligations.RandomByteReachesOnlyRnd : Prop :=
  ∀ (s : State) (b c : Byte), (∀ x nn, s.current ≠ some (.rnd x nn)) → s.cycle b = s.cycle c

/-- R109, R230, R232: in every cycle that is not fatal the delay timer counts down once, from the value LD DT, Vx wrote if
the cycle executes that, and so does the sound timer with LD ST, Vx; the tone is the sound timer's passing from 1 to 0. -/
def Obligations.TimersCountOncePerSafeCycle : Prop :=
  ∀ (s : State) (r : CycleResult), runCycle s = .next r → r.outcome.isFatal = false →
    (∀ x, s.current = some (.ldDtVx x) → r.state.dt.toNat = (s.reg x).toNat - 1) ∧
    ((∀ x, s.current ≠ some (.ldDtVx x)) → r.state.dt.toNat = s.dt.toNat - 1) ∧
    (∀ x, s.current = some (.ldStVx x) →
      r.state.st.toNat = (s.reg x).toNat - 1 ∧ (r.tone = true ↔ (s.reg x).toNat = 1)) ∧
    ((∀ x, s.current ≠ some (.ldStVx x)) →
      r.state.st.toNat = s.st.toNat - 1 ∧ (r.tone = true ↔ s.st.toNat = 1))

/-- R233: with no LD ST, Vx executed, the tone is true in exactly the `s`-th following safe cycle, `s` the sound timer at
the start, and false in every other, whatever keys and random bytes the host gives between the cycles. -/
def Obligations.ToneSoundsInExactlyOneCycle : Prop :=
  ∀ (σ : Nat → State) (ρ : Nat → CycleResult) (k : Nat), SafeTraceWithout .ldStVx σ ρ k →
    ∀ j, j < k → ((ρ j).tone = true ↔ j + 1 = (σ 0).st.toNat)

/-- R233: with no LD DT, Vx executed, after `j` safe cycles the delay timer is its start less `j`, so it reads 0 after `d`
cycles and stays 0. -/
def Obligations.DelayTimerReachesZeroAndStays : Prop :=
  ∀ (σ : Nat → State) (ρ : Nat → CycleResult) (k : Nat), SafeTraceWithout .ldDtVx σ ρ k →
    ∀ j, j ≤ k → (σ j).dt.toNat = (σ 0).dt.toNat - j

/-- R112: a cycle whose instruction is a jump to itself changes nothing but the timers, and nothing at all once both are
0. -/
def Obligations.JumpToItselfIsASteadyState : Prop :=
  ∀ (s : State) (nnn : Addr12), s.halt = none → s.current = some (.jp nnn) → nnn.toNat = s.pc.toNat →
    (∃ t, step s = .next t ∧ KeepsBut [.dt, .st] s t ∧ t.dt.toNat = s.dt.toNat - 1 ∧ t.st.toNat = s.st.toNat - 1) ∧
    (s.dt = 0 → s.st = 0 → step s = .next s)

/-! ### The whole instruction set -/

/-- R241, R242: an instruction enters the halted state only with a kind of fatal outcome that R241 lists for it. -/
def Obligations.OnlyListedInstructionsRaiseFatal : Prop :=
  ∀ (i : Instr) (s t : State) (f : Fatal), s.halt = none → exec i s = .next t → t.halt = some f → MayRaise i f

/-- Each part of the state is changed only by the operations the spec names as its writers. The random-byte fields are the
model's own (log entry 2). -/
def Obligations.EachPartHasOnlyItsWriters : Prop :=
  ∀ (i : Instr) (s t : State) (p : Part), exec i s = .next t → p ≠ .pc → p ≠ .halt → i.op ∉ p.writers → p.Same s t

/-- The column "writes" of R23: an instruction changes no general register but those of its row. -/
def Obligations.RegistersChangeOnlyAsTabulated : Prop :=
  ∀ (i : Instr) (s t : State), exec i s = .next t → KeepsRegsBut (writesRegs i) s t

/-- The table of R26: the new `PC` of every instruction that is not fatal (SE Vx, Vy in its standard mode, the mode R26
gives). -/
def Obligations.ProgramCounterChangesAsTabulated : Prop :=
  ∀ (i : Instr) (s t : State), s.halt = none → s.cfg.seRegMode = .standard → exec i s = .next t → t.halt = none →
    match i with
    | .ret => ∃ k : Fin 16, k.val + 1 = s.sp.val ∧ t.pc.toNat = ((s.stack[k]).toNat + 2) % 65536
    | .jp nnn | .call nnn => t.pc.toNat = nnn.toNat
    | .seImm x nn => if s.reg x = nn then PcAdds 4 s t else PcAdds 2 s t
    | .sneImm x nn => if s.reg x = nn then PcAdds 2 s t else PcAdds 4 s t
    | .seReg x y => if s.reg x = s.reg y then PcAdds 4 s t else PcAdds 2 s t
    | .sneReg x y => if s.reg x = s.reg y then PcAdds 2 s t else PcAdds 4 s t
    | .skp x => if s.keyAt (s.reg x) = .ok true then PcAdds 4 s t else PcAdds 2 s t
    | .sknp x => if s.keyAt (s.reg x) = .ok true then PcAdds 2 s t else PcAdds 4 s t
    | .jpV0 nnn => t.pc.toNat = (nnn.toNat + (s.reg 0).toNat) % 65536
    | .ldVxK _ => if ∃ k : Fin 16, s.key[k] = true then PcAdds 2 s t else t.pc = s.pc
    | _ => PcAdds 2 s t

/-! ### Register loads and the ALU -/

/-- R151: LD Vx, nn. -/
def Obligations.LoadImmediate : Prop :=
  HasRow .ldImm 0xF000 0x6000 ∧ ∀ (x : Reg) (nn : Byte), WritesRegister (.ldImm x nn) x fun _ => nn.toNat

/-- R152: ADD Vx, nn wraps and sets no flag. -/
def Obligations.AddImmediateWrapsWithoutFlag : Prop :=
  HasRow .addImm 0xF000 0x7000 ∧
  ∀ (x : Reg) (nn : Byte), WritesRegister (.addImm x nn) x fun s => ((s.reg x).toNat + nn.toNat) % 256

/-- R153 to R156, R158: the move and the three logic operations write `V[x]` and no flag. -/
def Obligations.MoveAndLogicWriteNoFlag : Prop :=
  HasRow .ldReg 0xF00F 0x8000 ∧ HasRow .orReg 0xF00F 0x8001 ∧ HasRow .andReg 0xF00F 0x8002 ∧
  HasRow .xorReg 0xF00F 0x8003 ∧
  ∀ x y : Reg,
    WritesRegister (.ldReg x y) x (fun s => (s.reg y).toNat) ∧
    WritesRegister (.orReg x y) x (fun s => ((s.reg x).toNat ||| (s.reg y).toNat : Nat)) ∧
    WritesRegister (.andReg x y) x (fun s => ((s.reg x).toNat &&& (s.reg y).toNat : Nat)) ∧
    WritesRegister (.xorReg x y) x (fun s => ((s.reg x).toNat ^^^ (s.reg y).toNat : Nat))

/-- R159, R157: ADD Vx, Vy with carry. -/
def Obligations.AddRegisterSetsCarry : Prop :=
  HasRow .addReg 0xF00F 0x8004 ∧
  ∀ x y : Reg, WritesResultAndFlag (.addReg x y) x (fun s => ((s.reg x).toNat + (s.reg y).toNat) % 256)
    (fun s => if (s.reg x).toNat + (s.reg y).toNat > 255 then 1 else 0)

/-- R160, R162, R157: SUB and SUBN, the flag 0 exactly where a borrow occurred. -/
def Obligations.SubtractionsSetNotBorrow : Prop :=
  HasRow .sub 0xF00F 0x8005 ∧ HasRow .subn 0xF00F 0x8007 ∧
  ∀ x y : Reg,
    WritesResultAndFlag (.sub x y) x (fun s => (((s.reg x).toNat : Int) - (s.reg y).toNat) % 256)
      (fun s => if (s.reg y).toNat > (s.reg x).toNat then 0 else 1) ∧
    WritesResultAndFlag (.subn x y) x (fun s => (((s.reg y).toNat : Int) - (s.reg x).toNat) % 256)
      (fun s => if (s.reg x).toNat > (s.reg y).toNat then 0 else 1)

/-- R161, R163, R157: SHR and SHL shift `V[y]` into `V[x]`; the flag is the bit shifted out. -/
def Obligations.ShiftsReadRegisterY : Prop :=
  HasRow .shr 0xF00F 0x8006 ∧ HasRow .shl 0xF00F 0x800E ∧
  ∀ x y : Reg,
    WritesResultAndFlag (.shr x y) x (fun s => ((s.reg y).toNat / 2 : Nat)) (fun s => ((s.reg y).toNat % 2 : Nat)) ∧
    WritesResultAndFlag (.shl x y) x (fun s => (2 * (s.reg y).toNat % 256 : Nat)) (fun s => ((s.reg y).toNat / 128 : Nat))

/-- R170: RND Vx, nn writes the cycle's random byte masked by `nn`: the byte the cycle is given, any byte where none is
named (`Config.rndByte`, log entry 2). Nothing else changes but the model's own random-byte fields. -/
def Obligations.RandomByteIsMasked : Prop :=
  HasRow .rnd 0xF000 0xC000 ∧
  ∀ (x : Reg) (nn : Byte) (s : State), ∃ t, exec (.rnd x nn) s = .next t ∧
    (∀ b, s.rndIn = some b → (t.reg x).toNat = b.toNat &&& nn.toNat) ∧
    (s.rndIn = none → (t.reg x).toNat = (Config.rndByte s.rndCount).toNat &&& nn.toNat) ∧
    (nn = 0 → t.reg x = 0) ∧ PcAdds 2 s t ∧ KeepsRegsBut [x] s t ∧ KeepsBut [.regs, .pc, .random] s t

/-! ### Control transfer -/

/-- R130, R31: RET pops; its target is the popped address plus 2. With an empty stack it halts. -/
def Obligations.ReturnPopsAndAddsTwo : Prop :=
  HasRow .ret 0xF00F 0x000E ∧ encode .ret = 0x00EE ∧
  ∀ s : State,
    (s.sp.val = 0 → Halts .ret s (.stackUnderflow s.pc)) ∧
    (∀ k : Fin 16, s.sp.val = k.val + 1 → ∃ t, exec .ret s = .next t ∧ t.sp.val = k.val ∧
      t.pc.toNat = ((s.stack[k]).toNat + 2) % 65536 ∧ KeepsBut [.sp, .pc] s t)

/-- R132, R31: CALL pushes its own address and jumps. With a full stack it halts. -/
def Obligations.CallPushesItsOwnAddress : Prop :=
  HasRow .call 0xF000 0x2000 ∧
  ∀ (nnn : Addr12) (s : State),
    (s.sp.val = 16 → Halts (.call nnn) s (.stackOverflow s.pc)) ∧
    (∀ k : Fin 16, s.sp.val = k.val → ∃ t, exec (.call nnn) s = .next t ∧ t.sp.val = k.val + 1 ∧ t.stack[k] = s.pc ∧
      (∀ j : Fin 16, j ≠ k → t.stack[j] = s.stack[j]) ∧ t.pc.toNat = nnn.toNat ∧ KeepsBut [.stack, .sp, .pc] s t)

/-- R131, R137: JP nnn, and JP V0, nnn with no reduction to 12 bits. -/
def Obligations.JumpsSetTheProgramCounter : Prop :=
  HasRow .jp 0xF000 0x1000 ∧ HasRow .jpV0 0xF000 0xB000 ∧
  ∀ (nnn : Addr12) (s : State),
    (∃ t, exec (.jp nnn) s = .next t ∧ t.pc.toNat = nnn.toNat ∧ KeepsBut [.pc] s t) ∧
    (∃ t, exec (.jpV0 nnn) s = .next t ∧ t.pc.toNat = (nnn.toNat + (s.reg 0).toNat) % 65536 ∧ KeepsBut [.pc] s t)

/-- R133, R134, R136: the skips on an immediate and SNE Vx, Vy. -/
def Obligations.SkipsCompareRegisters : Prop :=
  HasRow .seImm 0xF000 0x3000 ∧ HasRow .sneImm 0xF000 0x4000 ∧ HasRow .sneReg 0xF000 0x9000 ∧
  (∀ (x : Reg) (nn : Byte), SkipsWhen (.seImm x nn) (fun s => s.reg x = nn) ∧
    SkipsWhen (.sneImm x nn) (fun s => s.reg x ≠ nn)) ∧
  ∀ x y : Reg, SkipsWhen (.sneReg x y) (fun s => s.reg x ≠ s.reg y)

/-- R135: SE Vx, Vy in both settings of `SE_REG_MODE`. -/
def Obligations.SkipIfRegistersEqualInBothModes : Prop :=
  HasRow .seReg 0xF000 0x5000 ∧
  ∀ (x y : Reg) (s : State), ∃ t, exec (.seReg x y) s = .next t ∧ KeepsBut [.pc] s t ∧
    (s.cfg.seRegMode = .standard → s.reg x = s.reg y → PcAdds 4 s t) ∧
    (s.cfg.seRegMode = .standard → s.reg x ≠ s.reg y → PcAdds 2 s t) ∧
    (s.cfg.seRegMode = .handlerOnly → s.reg x = s.reg y → PcAdds 2 s t) ∧
    (s.cfg.seRegMode = .handlerOnly → s.reg x ≠ s.reg y → t.pc = s.pc)

/-- R139: CALLs that the stack has room for complete, and after them as many RETs as there are CALLs from any one of them
on lead back to where that CALL was: `SP` as it was before it, `PC` on the word after it. With `as` empty that is the first
CALL, so N CALLs and N RETs restore `SP`. A CALL on a full stack halts. -/
def Obligations.CallsAndReturnsRoundTrip : Prop :=
  (∀ (as bs : List Addr12) (s : State), s.sp.val + (as ++ bs).length ≤ 16 → bs ≠ [] →
    ∃ s₁ t u, callAll as s = .next s₁ ∧ s₁.sp.val = s.sp.val + as.length ∧
      callAll (as ++ bs) s = .next t ∧ t.sp.val = s.sp.val + (as ++ bs).length ∧
      retAll bs.length t = .next u ∧ u.sp = s₁.sp ∧ u.pc.toNat = (s₁.pc.toNat + 2) % 65536 ∧ u.halt = s.halt) ∧
  ∀ (nnn : Addr12) (s : State), s.sp.val = 16 → Halts (.call nnn) s (.stackOverflow s.pc)

/-! ### Index register and memory -/

/-- R180, R181: LD I, nnn and ADD I, Vx modulo 4096, with no flag. -/
def Obligations.IndexLoadsAndAdds : Prop :=
  HasRow .ldI 0xF000 0xA000 ∧ HasRow .addIVx 0xF0FF 0xF01E ∧
  (∀ nnn : Addr12, WritesIndex (.ldI nnn) fun _ => nnn.toNat) ∧
  ∀ x : Reg, WritesIndex (.addIVx x) fun s => (s.i.toNat + (s.reg x).toNat) % 4096

/-- R182: LD F, Vx in both settings of `FONT_ADDR_MODE`, `V[x] mod 5` under `mod5` and the glyph's address under `glyph`. -/
def Obligations.FontAddressInBothModes : Prop :=
  HasRow .ldFVx 0xF0FF 0xF029 ∧
  ∀ x : Reg, WritesIndex (.ldFVx x) fun s =>
    match s.cfg.fontAddrMode with
    | .mod5 => (s.reg x).toNat % 5
    | .glyph => 0 + (s.reg x).toNat % 16 * 5

/-- R183: LD B, Vx stores the decimal digits at `I`, `I + 1`, `I + 2`, or, where `I + 2` is outside memory, halts with the
lowest address that is, and stores nothing. -/
def Obligations.DecimalDigitsAreStored : Prop :=
  HasRow .ldBVx 0xF0FF 0xF033 ∧
  ∀ (x : Reg) (s : State),
    (s.i.toNat + 2 < s.cfg.memSize → ∃ t, exec (.ldBVx x) s = .next t ∧
      (t.peek s.i.toNat).toNat = (s.reg x).toNat / 100 ∧
      (t.peek (s.i.toNat + 1)).toNat = (s.reg x).toNat / 10 % 10 ∧
      (t.peek (s.i.toNat + 2)).toNat = (s.reg x).toNat % 10 ∧
      KeepsBytesBut s.i.toNat 3 s t ∧ PcAdds 2 s t ∧ KeepsBut [.mem, .pc] s t) ∧
    (s.cfg.memSize ≤ s.i.toNat + 2 → Halts (.ldBVx x) s (.memoryBounds (max s.i.toNat s.cfg.memSize)))

/-- R184: LD [I], Vx stores `V[0]` to `V[x]` from the base of `REGRANGE_MODE` on and moves `I`; where the last address is
outside memory it halts with the lowest one that is, and stores nothing. -/
def Obligations.RegistersAreStored : Prop :=
  HasRow .ldMemVx 0xF0FF 0xF055 ∧
  ∀ (x : Reg) (s : State),
    (s.cfg.regRangeMode = .preincrement → s.rangeBase = s.i.toNat + 1) ∧
    (s.cfg.regRangeMode = .standard → s.rangeBase = s.i.toNat) ∧
    (s.rangeBase + x.val < s.cfg.memSize → ∃ t, exec (.ldMemVx x) s = .next t ∧
      (∀ j : Reg, j ≤ x → t.peek (s.rangeBase + j.val) = s.reg j) ∧ KeepsBytesBut s.rangeBase (x.val + 1) s t ∧
      t.i.toNat = (s.i.toNat + x.val + 1) % 65536 ∧ PcAdds 2 s t ∧ KeepsBut [.mem, .index, .pc] s t) ∧
    (s.cfg.memSize ≤ s.rangeBase + x.val → Halts (.ldMemVx x) s (.memoryBounds (max s.rangeBase s.cfg.memSize)))

/-- R185: LD Vx, [I] loads `V[0]` to `V[x]` from the same addresses and moves `I`; where the last address is outside memory
it halts with the lowest one that is, and loads nothing. -/
def Obligations.RegistersAreLoaded : Prop :=
  HasRow .ldVxMem 0xF0FF 0xF065 ∧
  ∀ (x : Reg) (s : State),
    (s.cfg.regRangeMode = .preincrement → s.rangeBase = s.i.toNat + 1) ∧
    (s.cfg.regRangeMode = .standard → s.rangeBase = s.i.toNat) ∧
    (s.rangeBase + x.val < s.cfg.memSize → ∃ t, exec (.ldVxMem x) s = .next t ∧
      (∀ j : Reg, j ≤ x → t.reg j = s.peek (s.rangeBase + j.val)) ∧ (∀ j : Reg, x < j → t.reg j = s.reg j) ∧
      t.i.toNat = (s.i.toNat + x.val + 1) % 65536 ∧ PcAdds 2 s t ∧ KeepsBut [.regs, .index, .pc] s t) ∧
    (s.cfg.memSize ≤ s.rangeBase + x.val → Halts (.ldVxMem x) s (.memoryBounds (max s.rangeBase s.cfg.memSize)))

/-- R186: storing `V[0]` to `V[x]`, setting `I` back, and loading them gives them back, whatever the registers hold in
between, provided the store raises no fatal outcome; the load then raises none either. -/
def Obligations.StoreThenLoadGivesRegistersBack : Prop :=
  ∀ (x : Reg) (s t u : State), s.halt = none → exec (.ldMemVx x) s = .next t → t.halt = none →
    u.mem = t.mem → u.cfg = t.cfg → u.i = s.i → u.halt = none →
    ∃ r, exec (.ldVxMem x) u = .next r ∧ r.halt = none ∧ ∀ j : Reg, j ≤ x → r.reg j = s.reg j

/-- R66: what LD B or LD [I] stores over the next instruction's word is the word the next cycle fetches, the byte at the
lower address being the high one. -/
def Obligations.StoredBytesAreFetchedByTheNextCycle : Prop :=
  ∀ (s : State) (x : Reg), s.halt = none → s.pc.toNat + 2 < 65536 →
    (s.current = some (.ldBVx x) → s.i.toNat = s.pc.toNat + 2 → s.i.toNat + 2 < s.cfg.memSize →
      ∃ t w, step s = .next t ∧ t.halt = none ∧ t.fetch = .ok w ∧
        w.toNat = (s.reg x).toNat / 100 * 256 + (s.reg x).toNat / 10 % 10) ∧
    (s.current = some (.ldMemVx x) → 1 ≤ x.val → s.rangeBase = s.pc.toNat + 2 → s.rangeBase + x.val < s.cfg.memSize →
      ∃ t w, step s = .next t ∧ t.halt = none ∧ t.fetch = .ok w ∧
        w.toNat = (s.reg 0).toNat * 256 + (s.reg 1).toNat)

/-! ### Display -/

/-- R200: CLS clears every cell and changes no flag. -/
def Obligations.ClearScreenClearsEveryCell : Prop :=
  HasRow .cls 0xF00F 0x0000 ∧ encode .cls = 0x00E0 ∧
  ∀ s : State, ∃ t, exec .cls s = .next t ∧ (∀ p, t.cell p = false) ∧ PcAdds 2 s t ∧ KeepsBut [.display, .pc] s t

/-- R203, R202, and R201's bit order, which the spec has from general knowledge (log entry 12): DRW toggles exactly the cells under the sprite's set pixels, wrapping on both axes, and sets
`V[0xF]` to 1 exactly when one of them was set; where a row is outside memory it halts with the lowest such address and
changes nothing. -/
def Obligations.DrawTogglesTheSpriteCells : Prop :=
  HasRow .drw 0xF000 0xD000 ∧
  ∀ (x y : Reg) (n : Nat) (s : State), (Instr.drw x y n).wf = true →
    (n = 0 ∨ s.i.toNat + n ≤ s.cfg.memSize → ∃ t, exec (.drw x y n) s = .next t ∧
      (∀ p, SpriteCovers s (s.reg x) (s.reg y) n p → t.cell p = !s.cell p) ∧
      (∀ p, ¬ SpriteCovers s (s.reg x) (s.reg y) n p → t.cell p = s.cell p) ∧
      ((∃ p, SpriteCovers s (s.reg x) (s.reg y) n p ∧ s.cell p = true) → t.reg flagReg = 1) ∧
      ((¬ ∃ p, SpriteCovers s (s.reg x) (s.reg y) n p ∧ s.cell p = true) → t.reg flagReg = 0) ∧
      PcAdds 2 s t ∧ KeepsRegsBut [flagReg] s t ∧ KeepsBut [.display, .regs, .pc] s t) ∧
    (1 ≤ n → s.cfg.memSize < s.i.toNat + n →
      Halts (.drw x y n) s (.memoryBounds (max s.i.toNat s.cfg.memSize)))

/-- R204: a second draw of the same sprite at the same place restores the display, and sets the flag exactly when the
first draw turned a cell on: on a display clear at the sprite's cells, when the sprite has a set bit. The coordinate
registers are not `V[0xF]`; `u` is any state between the draws with the same coordinates, `I`, sprite bytes and display.
The bit order is R201's, from general knowledge (log entry 12). -/
def Obligations.DrawingTwiceRestoresTheDisplay : Prop :=
  ∀ (x y : Reg) (n : Nat) (s t u : State), (Instr.drw x y n).wf = true → x ≠ flagReg → y ≠ flagReg →
    s.halt = none → exec (.drw x y n) s = .next t → t.halt = none →
    u.disp = t.disp → u.reg x = s.reg x → u.reg y = s.reg y → u.i = s.i → u.cfg = s.cfg → u.halt = none →
    (∀ r, r < n → u.peek (s.i.toNat + r) = s.peek (s.i.toNat + r)) →
    ∃ v, exec (.drw x y n) u = .next v ∧ v.halt = none ∧ v.disp = s.disp ∧
      (v.reg flagReg = 1 ↔ ∃ p, SpriteCovers s (s.reg x) (s.reg y) n p ∧ s.cell p = false) ∧
      ((∀ p, SpriteCovers s (s.reg x) (s.reg y) n p → s.cell p = false) →
        (v.reg flagReg = 1 ↔ ∃ r c, r < n ∧ c < 8 ∧ (s.peek (s.i.toNat + r)).toNat / 2 ^ (7 - c) % 2 = 1))

/-- R205: a sprite row with pixels in columns 0 and 1 (bits 7 and 6) drawn at column 63 of a clear display sets cells
(63, y) and (0, y), and no other where those two are its only pixels. The bit order is R201's, from general knowledge (log
entry 12). -/
def Obligations.DrawingAtTheRightEdgeWraps : Prop :=
  ∀ (x y : Reg) (s : State), s.i.toNat < s.cfg.memSize → s.reg x = 63 → 0xC0 ≤ (s.peek s.i.toNat).toNat →
    (∀ p, s.cell p = false) →
    ∃ t, exec (.drw x y 1) s = .next t ∧
      (∀ p : Cell, (p.1 = 63 ∨ p.1 = 0) → p.2.val = (s.reg y).toNat % 32 → t.cell p = true) ∧
      (s.peek s.i.toNat = 0xC0 → ∀ p : Cell, t.cell p = true → (p.1 = 63 ∨ p.1 = 0) ∧ p.2.val = (s.reg y).toNat % 32)

/-! ### Keys and timers -/

/-- R220, R221, R226: SKP and SKNP test the key numbered by the value of `V[x]`; a number of 16 or more halts or is
reduced, by `KEY_INDEX_POLICY`. -/
def Obligations.KeySkipsTestTheNumberedKey : Prop :=
  HasRow .skp 0xF0FF 0xE09E ∧ HasRow .sknp 0xF0FF 0xE0A1 ∧
  ∀ (x : Reg) (s : State),
    (∀ k : Fin 16, ((s.reg x).toNat = k.val ∨ (s.cfg.keyIndexPolicy = .mask ∧ (s.reg x).toNat % 16 = k.val)) →
      (∃ t, exec (.skp x) s = .next t ∧ (s.key[k] = true → PcAdds 4 s t) ∧ (s.key[k] = false → PcAdds 2 s t) ∧
        KeepsBut [.pc] s t) ∧
      (∃ t, exec (.sknp x) s = .next t ∧ (s.key[k] = false → PcAdds 4 s t) ∧ (s.key[k] = true → PcAdds 2 s t) ∧
        KeepsBut [.pc] s t)) ∧
    (16 ≤ (s.reg x).toNat → s.cfg.keyIndexPolicy = .fault →
      Halts (.skp x) s (.keyIndexRange (s.reg x)) ∧ Halts (.sknp x) s (.keyIndexRange (s.reg x)))

/-- R223: LD Vx, K writes the highest-numbered pressed key and advances; with no key pressed it changes nothing, `PC`
included, so that the next cycle executes it again. -/
def Obligations.WaitForKeyTakesTheHighest : Prop :=
  HasRow .ldVxK 0xF0FF 0xF00A ∧
  ∀ (x : Reg) (s : State),
    (∀ k : Fin 16, s.key[k] = true → (∀ j : Fin 16, k < j → s.key[j] = false) →
      ∃ t, exec (.ldVxK x) s = .next t ∧ (t.reg x).toNat = k.val ∧ PcAdds 2 s t ∧ KeepsRegsBut [x] s t ∧
        KeepsBut [.regs, .pc] s t) ∧
    ((∀ k : Fin 16, s.key[k] = false) → exec (.ldVxK x) s = .next s)

/-- R222, R224, R225: LD Vx, DT reads the delay timer; LD DT, Vx and LD ST, Vx write one timer each, and the housekeeping
of the same cycle counts the new value down and sounds the tone when it is 1. What the housekeeping then does is an inference
that R224 and R225 mark as derived from R232, so this statement is derived. -/
def Obligations.TimerMovesReadAndWrite : Prop :=
  HasRow .ldVxDt 0xF0FF 0xF007 ∧ HasRow .ldDtVx 0xF0FF 0xF015 ∧ HasRow .ldStVx 0xF0FF 0xF018 ∧
  ∀ x : Reg, WritesRegister (.ldVxDt x) x (fun s => s.dt.toNat) ∧
    ∀ s : State,
      (∃ t, exec (.ldDtVx x) s = .next t ∧ t.dt = s.reg x ∧ t.housekeeping.dt.toNat = (s.reg x).toNat - 1 ∧
        PcAdds 2 s t ∧ KeepsBut [.dt, .pc] s t) ∧
      (∃ t, exec (.ldStVx x) s = .next t ∧ t.st = s.reg x ∧ t.housekeeping.st.toNat = (s.reg x).toNat - 1 ∧
        (t.toneNow = true ↔ (s.reg x).toNat = 1) ∧ PcAdds 2 s t ∧ KeepsBut [.st, .pc] s t)

/-! ### Reset and the host's transactions -/

/-- R270: the state after construction, the column "at construction" of R39. `MEM` is stated byte by byte; `FONT` and
the other parameters stay abstract. -/
def Obligations.ConstructionValues : Prop :=
  ∀ c : Config, ∀ s : State, s = State.constructed c →
    (∀ x, s.reg x = 0) ∧ s.i = 0 ∧ s.pc.toNat = 0x200 ∧ (∀ k : Fin 16, s.stack[k] = 0) ∧ s.sp = 0 ∧ s.dt = 0 ∧ s.st = 0 ∧
    (∀ p, s.cell p = false) ∧ (∀ k : Fin 16, s.key[k] = false) ∧ s.halt = none ∧
    (∀ a : Fin 80, s.peek a.val = c.font[a]) ∧ (∀ a, 80 ≤ a → s.peek a = 0)

/-- R271: the `reset()` transaction, from any state, halted or not. Memory outside the font, and `KEY`, keep their contents.
No cycle and no other transaction leaves the halted state. -/
def Obligations.ResetTransactionValues : Prop :=
  ∀ s : State,
    (∀ x, s.resetTx.reg x = 0) ∧ (∀ k : Fin 16, s.resetTx.stack[k] = 0) ∧ s.resetTx.i = 0 ∧ s.resetTx.sp = 0 ∧
    s.resetTx.dt = 0 ∧ s.resetTx.st = 0 ∧ (∀ p, s.resetTx.cell p = false) ∧
    (∀ a : Fin 80, s.resetTx.peek a.val = s.cfg.font[a]) ∧ (∀ a, 80 ≤ a → s.resetTx.peek a = s.peek a) ∧
    s.resetTx.pc.toNat = 0x200 ∧ s.resetTx.halt = none ∧
    KeepsBut [.mem, .regs, .index, .pc, .stack, .sp, .display, .dt, .st, .halt] s s.resetTx ∧
    (s.halt ≠ none → (∀ t, step s = .next t → t.halt = s.halt) ∧
      ∀ k bytes, (s.setKeys k).halt = s.halt ∧ (s.load bytes).1.halt = s.halt)

/-- R7: bit `j` of the input of `set_keys` is `KEY[j]`, the whole vector is replaced, and nothing else changes;
`read_display` gives the grid. -/
def Obligations.SetKeysReplacesTheVector : Prop :=
  ∀ (s : State) (k : Word), (∀ j : Fin 16, (s.setKeys k).key[j] = decide (k.toNat / 2 ^ j.val % 2 = 1)) ∧
    KeepsBut [.keys] s (s.setKeys k) ∧ ∀ p, Display.get s.readDisplay p = s.cell p

/-- R170: RND Vx, nn in the cycle that the byte `b` is given to. Nothing else changes but the timers, by the housekeeping,
and the model's own random-byte fields (log entry 2). -/
def Obligations.CycleSuppliesTheRandomByte : Prop :=
  HasRow .rnd 0xF000 0xC000 ∧
  ∀ (s : State) (b : Byte) (x : Reg) (nn : Byte), s.halt = none → s.current = some (.rnd x nn) →
    ∃ r, s.cycle b = .next r ∧ r.outcome = .ok ∧ (r.state.reg x).toNat = b.toNat &&& nn.toNat ∧ PcAdds 2 s r.state ∧
      KeepsRegsBut [x] s r.state ∧ KeepsBut [.regs, .pc, .dt, .st, .random] s r.state

/-- R60, R61: `load` copies the bytes to 0x200 on, or, where they do not fit, answers `LoadError` and writes nothing. It
changes nothing but memory. That it does so while halted too is the model's reading (log entry 3). -/
def Obligations.LoadCopiesOrWritesNothing : Prop :=
  ∀ (s : State) (bytes : List Byte),
    (bytes.length + 0x200 ≤ s.cfg.memSize → ∃ t, s.load bytes = (t, .ok) ∧
      (∀ j (h : j < bytes.length), t.peek (0x200 + j) = bytes[j]) ∧ KeepsBytesBut 0x200 bytes.length s t ∧
      KeepsBut [.mem] s t) ∧
    (s.cfg.memSize < bytes.length + 0x200 → s.load bytes = (s, .loadError))

/-! ### Invariants -/

/-- The state after reset has both invariants. -/
def Obligations.ResetMeetsTheInvariants : Prop :=
  State.reset.MemOk ∧ State.reset.Bounded ∧ ∀ c : Config, (State.constructed c).MemOk ∧ (State.constructed c).Bounded

/-- Every step, from every state with its memory in canonical form, keeps it so, in every parameter setting. -/
def Obligations.StepKeepsMemoryCanonical : Prop :=
  ∀ s t : State, s.MemOk → step s = .next t → t.MemOk

/-- R29, R27, R130: with `MEM_SIZE` = 4095 and any setting of the other parameters, every step keeps `I` at most 0xFFF, `PC`
at most 0x10FE and every stack entry in use at most 0xFFD. -/
def Obligations.StepKeepsIndexAndProgramCounterBounded : Prop :=
  ∀ s t : State, s.cfg.memSize = 4095 → s.Bounded → step s = .next t → t.cfg.memSize = 4095 ∧ t.Bounded

/-- The host's transactions keep both invariants, so a run that mixes them with cycles does. -/
def Obligations.TransactionsKeepTheInvariants : Prop :=
  ∀ (s : State) (k : Word) (bytes : List Byte),
    (s.MemOk → (s.setKeys k).MemOk ∧ s.resetTx.MemOk ∧ (s.load bytes).1.MemOk) ∧
    (s.Bounded → (s.setKeys k).Bounded ∧ s.resetTx.Bounded ∧ (s.load bytes).1.Bounded)
end

