-- ==== Sys2Proof/Laws/Decode.lean ====
section
/-! SUPPORT. The fields of a word and of a laid-out word as numbers. -/

namespace Sys2Proof

theorem fieldFamily_toNat (w : Word) : (fieldFamily w).toNat = w.toNat / 4096 := by
  have := w.isLt
  simp only [fieldFamily, BitVec.extractLsb'_toNat, Nat.shiftRight_eq_div_pow]
  omega

theorem fieldX_val (w : Word) : (fieldX w).val = w.toNat / 256 % 16 := by
  simp only [fieldX, BitVec.val_toFin, BitVec.extractLsb'_toNat, Nat.shiftRight_eq_div_pow]

theorem fieldY_val (w : Word) : (fieldY w).val = w.toNat / 16 % 16 := by
  simp only [fieldY, BitVec.val_toFin, BitVec.extractLsb'_toNat, Nat.shiftRight_eq_div_pow]

theorem fieldN_toNat (w : Word) : (fieldN w).toNat = w.toNat % 16 := by
  simp only [fieldN, BitVec.extractLsb'_toNat, Nat.shiftRight_eq_div_pow]
  omega

theorem fieldNN_toNat (w : Word) : (fieldNN w).toNat = w.toNat % 256 := by
  simp only [fieldNN, BitVec.extractLsb'_toNat, Nat.shiftRight_eq_div_pow]
  omega

theorem fieldNNN_toNat (w : Word) : (fieldNNN w).toNat = w.toNat % 4096 := by
  simp only [fieldNNN, BitVec.extractLsb'_toNat, Nat.shiftRight_eq_div_pow]
  omega

theorem append_toNat {m n : Nat} (a : BitVec m) (b : BitVec n) : (a ++ b).toNat = a.toNat * 2 ^ n + b.toNat := by
  rw [BitVec.toNat_append, Nat.shiftLeft_eq, Nat.mul_comm, Nat.two_pow_add_eq_or_of_lt b.isLt]

theorem layoutA_toNat (f : BitVec 4) (nnn : Addr12) : (layoutA f nnn).toNat = f.toNat * 4096 + nnn.toNat :=
  append_toNat f nnn

theorem layoutXK_toNat (f : BitVec 4) (x : Reg) (nn : Byte) :
    (layoutXK f x nn).toNat = f.toNat * 4096 + x.val * 256 + nn.toNat := by
  have h : (layoutXK f x nn).toNat = _ := append_toNat (f ++ (BitVec.ofFin x : BitVec 4)) nn
  rw [h, append_toNat]
  simp only [BitVec.toNat_ofFin]
  omega

theorem layoutXYN_toNat (f : BitVec 4) (x y : Reg) (n : BitVec 4) :
    (layoutXYN f x y n).toNat = f.toNat * 4096 + x.val * 256 + y.val * 16 + n.toNat := by
  have h : (layoutXYN f x y n).toNat = _ :=
    append_toNat ((f ++ (BitVec.ofFin x : BitVec 4)) ++ (BitVec.ofFin y : BitVec 4)) n
  rw [h, append_toNat, append_toNat]
  simp only [BitVec.toNat_ofFin]
  omega

theorem wordOfBytes_toNat (hi lo : Byte) : (wordOfBytes hi lo).toNat = hi.toNat * 256 + lo.toNat := append_toNat hi lo

/-- The two bytes of a word, laid out and read again, give the word (R52, R53). -/
@[simp] theorem wordOfBytes_bytes (w : Word) : wordOfBytes (highByte w) (lowByte w) = w := by
  apply BitVec.eq_of_toNat_eq
  have := w.isLt
  simp only [wordOfBytes_toNat, highByte, lowByte, BitVec.extractLsb'_toNat, Nat.shiftRight_eq_div_pow]
  omega

theorem decode_bytes (w : Word) (rest : List Byte) :
    decode (highByte w :: lowByte w :: rest) = (decodeWord w).map fun i => (i, rest) := by
  simp only [decode, wordOfBytes_bytes]

theorem bitVec_eq_iff_toNat {n : Nat} {a b : BitVec n} : a = b ↔ a.toNat = b.toNat :=
  ⟨fun h => h ▸ rfl, BitVec.eq_of_toNat_eq⟩

/-- The decoder by the number of the family (R84). -/
theorem decodeWord_family (w : Word) : decodeWord w =
    match w.toNat / 4096 with
    | 0 => decodeFamily0 w
    | 1 => .ok (.jp (fieldNNN w))
    | 2 => .ok (.call (fieldNNN w))
    | 3 => .ok (.seImm (fieldX w) (fieldNN w))
    | 4 => .ok (.sneImm (fieldX w) (fieldNN w))
    | 5 => .ok (.seReg (fieldX w) (fieldY w))
    | 6 => .ok (.ldImm (fieldX w) (fieldNN w))
    | 7 => .ok (.addImm (fieldX w) (fieldNN w))
    | 8 => decodeFamily8 w
    | 9 => .ok (.sneReg (fieldX w) (fieldY w))
    | 10 => .ok (.ldI (fieldNNN w))
    | 11 => .ok (.jpV0 (fieldNNN w))
    | 12 => .ok (.rnd (fieldX w) (fieldNN w))
    | 13 => .ok (.drw (fieldX w) (fieldY w) (fieldN w).toNat)
    | 14 => decodeFamilyE w
    | _ => decodeFamilyF w := by
  have hf := fieldFamily_toNat w
  have hlt : w.toNat / 4096 < 16 := by have := w.isLt; omega
  simp only [decodeWord, bitVec_eq_iff_toNat, hf]
  generalize w.toNat / 4096 = f at hlt
  interval_cases f <;> rfl

/-- A word is its four nibbles. -/
theorem word_eq_layoutXYN (w : Word) : w = layoutXYN (fieldFamily w) (fieldX w) (fieldY w) (fieldN w) := by
  apply BitVec.eq_of_toNat_eq
  rw [layoutXYN_toNat, fieldFamily_toNat, fieldX_val, fieldY_val, fieldN_toNat]
  omega

/-- A word under a mask, nibble by nibble. -/
theorem layoutXYN_and (f g : BitVec 4) (x y a b : Reg) (n m : BitVec 4) :
    layoutXYN f x y n &&& layoutXYN g a b m =
      layoutXYN (f &&& g) (BitVec.ofFin x &&& BitVec.ofFin a : BitVec 4).toFin
        (BitVec.ofFin y &&& BitVec.ofFin b : BitVec 4).toFin (n &&& m) := by
  have h : (((f ++ (BitVec.ofFin x : BitVec 4)) ++ (BitVec.ofFin y : BitVec 4)) ++ n) &&&
      (((g ++ (BitVec.ofFin a : BitVec 4)) ++ (BitVec.ofFin b : BitVec 4)) ++ m) =
      (((f &&& g) ++ (BitVec.ofFin x &&& BitVec.ofFin a : BitVec 4)) ++
        (BitVec.ofFin y &&& BitVec.ofFin b : BitVec 4)) ++ (n &&& m) := by
    simp only [BitVec.and_append]
  exact h

theorem nibble_and_ones (n : BitVec 4) : n &&& 0xF = n := BitVec.and_allOnes (x := n)

/-- A word under the mask of the rows without a selector (R85). -/
theorem and_mask_family (w : Word) : (w &&& 0xF000).toNat = w.toNat / 4096 * 4096 := by
  conv => lhs; rw [word_eq_layoutXYN w]
  rw [show (0xF000 : Word) = layoutXYN 0xF 0 0 0 by decide, layoutXYN_and, layoutXYN_toNat, nibble_and_ones]
  simp [fieldFamily_toNat]

/-- A word under the mask of the rows with a low-nibble selector (R85). -/
theorem and_mask_family_n (w : Word) : (w &&& 0xF00F).toNat = w.toNat / 4096 * 4096 + w.toNat % 16 := by
  conv => lhs; rw [word_eq_layoutXYN w]
  rw [show (0xF00F : Word) = layoutXYN 0xF 0 0 0xF by decide, layoutXYN_and, layoutXYN_toNat, nibble_and_ones,
    nibble_and_ones]
  simp [fieldFamily_toNat, fieldN_toNat]

/-- A word under the mask of the rows with a low-byte selector (R85). -/
theorem and_mask_family_nn (w : Word) : (w &&& 0xF0FF).toNat = w.toNat / 4096 * 4096 + w.toNat % 256 := by
  have hy : (BitVec.ofFin (fieldY w) &&& BitVec.ofFin 0xF : BitVec 4) = BitVec.ofFin (fieldY w) :=
    BitVec.and_allOnes (x := (BitVec.ofFin (fieldY w) : BitVec 4))
  conv => lhs; rw [word_eq_layoutXYN w]
  rw [show (0xF0FF : Word) = layoutXYN 0xF 0 0xF 0xF by decide, layoutXYN_and, layoutXYN_toNat, nibble_and_ones,
    nibble_and_ones, hy]
  simp [fieldFamily_toNat, fieldN_toNat, fieldY_val]
  omega

end Sys2Proof
end

