-- ==== Sys2Proof/Laws/State.lean ====
section
/-! SUPPORT. One lemma per field per update of the state, each true by rfl, and the reads through the accessors. -/

namespace Sys2Proof.Machine

/-! ### `State.setReg` -/

@[simp] theorem State.setReg_mem (s : State) (x : Reg) (u : Byte) : (s.setReg x u).mem = s.mem := rfl
@[simp] theorem State.setReg_v (s : State) (x : Reg) (u : Byte) : (s.setReg x u).v = s.v.set x.val u x.isLt := rfl
@[simp] theorem State.setReg_i (s : State) (x : Reg) (u : Byte) : (s.setReg x u).i = s.i := rfl
@[simp] theorem State.setReg_pc (s : State) (x : Reg) (u : Byte) : (s.setReg x u).pc = s.pc := rfl
@[simp] theorem State.setReg_stack (s : State) (x : Reg) (u : Byte) : (s.setReg x u).stack = s.stack := rfl
@[simp] theorem State.setReg_sp (s : State) (x : Reg) (u : Byte) : (s.setReg x u).sp = s.sp := rfl
@[simp] theorem State.setReg_disp (s : State) (x : Reg) (u : Byte) : (s.setReg x u).disp = s.disp := rfl
@[simp] theorem State.setReg_key (s : State) (x : Reg) (u : Byte) : (s.setReg x u).key = s.key := rfl
@[simp] theorem State.setReg_dt (s : State) (x : Reg) (u : Byte) : (s.setReg x u).dt = s.dt := rfl
@[simp] theorem State.setReg_st (s : State) (x : Reg) (u : Byte) : (s.setReg x u).st = s.st := rfl
@[simp] theorem State.setReg_halt (s : State) (x : Reg) (u : Byte) : (s.setReg x u).halt = s.halt := rfl
@[simp] theorem State.setReg_cfg (s : State) (x : Reg) (u : Byte) : (s.setReg x u).cfg = s.cfg := rfl
@[simp] theorem State.setReg_rndIn (s : State) (x : Reg) (u : Byte) : (s.setReg x u).rndIn = s.rndIn := rfl
@[simp] theorem State.setReg_rndCount (s : State) (x : Reg) (u : Byte) : (s.setReg x u).rndCount = s.rndCount := rfl
@[simp] theorem State.peek_setReg (s : State) (x : Reg) (u : Byte) (b : Nat) : (s.setReg x u).peek b = s.peek b := rfl
@[simp] theorem State.cell_setReg (s : State) (x : Reg) (u : Byte) (p : Cell) : (s.setReg x u).cell p = s.cell p := rfl

/-! ### `State.setIndex` -/

@[simp] theorem State.setIndex_mem (s : State) (a : Word) : (s.setIndex a).mem = s.mem := rfl
@[simp] theorem State.setIndex_v (s : State) (a : Word) : (s.setIndex a).v = s.v := rfl
@[simp] theorem State.setIndex_i (s : State) (a : Word) : (s.setIndex a).i = a := rfl
@[simp] theorem State.setIndex_pc (s : State) (a : Word) : (s.setIndex a).pc = s.pc := rfl
@[simp] theorem State.setIndex_stack (s : State) (a : Word) : (s.setIndex a).stack = s.stack := rfl
@[simp] theorem State.setIndex_sp (s : State) (a : Word) : (s.setIndex a).sp = s.sp := rfl
@[simp] theorem State.setIndex_disp (s : State) (a : Word) : (s.setIndex a).disp = s.disp := rfl
@[simp] theorem State.setIndex_key (s : State) (a : Word) : (s.setIndex a).key = s.key := rfl
@[simp] theorem State.setIndex_dt (s : State) (a : Word) : (s.setIndex a).dt = s.dt := rfl
@[simp] theorem State.setIndex_st (s : State) (a : Word) : (s.setIndex a).st = s.st := rfl
@[simp] theorem State.setIndex_halt (s : State) (a : Word) : (s.setIndex a).halt = s.halt := rfl
@[simp] theorem State.setIndex_cfg (s : State) (a : Word) : (s.setIndex a).cfg = s.cfg := rfl
@[simp] theorem State.setIndex_rndIn (s : State) (a : Word) : (s.setIndex a).rndIn = s.rndIn := rfl
@[simp] theorem State.setIndex_rndCount (s : State) (a : Word) : (s.setIndex a).rndCount = s.rndCount := rfl
@[simp] theorem State.reg_setIndex (s : State) (a : Word) (r : Reg) : (s.setIndex a).reg r = s.reg r := rfl
@[simp] theorem State.peek_setIndex (s : State) (a : Word) (b : Nat) : (s.setIndex a).peek b = s.peek b := rfl
@[simp] theorem State.cell_setIndex (s : State) (a : Word) (p : Cell) : (s.setIndex a).cell p = s.cell p := rfl

/-! ### `State.setPc` -/

@[simp] theorem State.setPc_mem (s : State) (a : Word) : (s.setPc a).mem = s.mem := rfl
@[simp] theorem State.setPc_v (s : State) (a : Word) : (s.setPc a).v = s.v := rfl
@[simp] theorem State.setPc_i (s : State) (a : Word) : (s.setPc a).i = s.i := rfl
@[simp] theorem State.setPc_pc (s : State) (a : Word) : (s.setPc a).pc = a := rfl
@[simp] theorem State.setPc_stack (s : State) (a : Word) : (s.setPc a).stack = s.stack := rfl
@[simp] theorem State.setPc_sp (s : State) (a : Word) : (s.setPc a).sp = s.sp := rfl
@[simp] theorem State.setPc_disp (s : State) (a : Word) : (s.setPc a).disp = s.disp := rfl
@[simp] theorem State.setPc_key (s : State) (a : Word) : (s.setPc a).key = s.key := rfl
@[simp] theorem State.setPc_dt (s : State) (a : Word) : (s.setPc a).dt = s.dt := rfl
@[simp] theorem State.setPc_st (s : State) (a : Word) : (s.setPc a).st = s.st := rfl
@[simp] theorem State.setPc_halt (s : State) (a : Word) : (s.setPc a).halt = s.halt := rfl
@[simp] theorem State.setPc_cfg (s : State) (a : Word) : (s.setPc a).cfg = s.cfg := rfl
@[simp] theorem State.setPc_rndIn (s : State) (a : Word) : (s.setPc a).rndIn = s.rndIn := rfl
@[simp] theorem State.setPc_rndCount (s : State) (a : Word) : (s.setPc a).rndCount = s.rndCount := rfl
@[simp] theorem State.reg_setPc (s : State) (a : Word) (r : Reg) : (s.setPc a).reg r = s.reg r := rfl
@[simp] theorem State.peek_setPc (s : State) (a : Word) (b : Nat) : (s.setPc a).peek b = s.peek b := rfl
@[simp] theorem State.cell_setPc (s : State) (a : Word) (p : Cell) : (s.setPc a).cell p = s.cell p := rfl

/-! ### `State.setDt` -/

@[simp] theorem State.setDt_mem (s : State) (u : Byte) : (s.setDt u).mem = s.mem := rfl
@[simp] theorem State.setDt_v (s : State) (u : Byte) : (s.setDt u).v = s.v := rfl
@[simp] theorem State.setDt_i (s : State) (u : Byte) : (s.setDt u).i = s.i := rfl
@[simp] theorem State.setDt_pc (s : State) (u : Byte) : (s.setDt u).pc = s.pc := rfl
@[simp] theorem State.setDt_stack (s : State) (u : Byte) : (s.setDt u).stack = s.stack := rfl
@[simp] theorem State.setDt_sp (s : State) (u : Byte) : (s.setDt u).sp = s.sp := rfl
@[simp] theorem State.setDt_disp (s : State) (u : Byte) : (s.setDt u).disp = s.disp := rfl
@[simp] theorem State.setDt_key (s : State) (u : Byte) : (s.setDt u).key = s.key := rfl
@[simp] theorem State.setDt_dt (s : State) (u : Byte) : (s.setDt u).dt = u := rfl
@[simp] theorem State.setDt_st (s : State) (u : Byte) : (s.setDt u).st = s.st := rfl
@[simp] theorem State.setDt_halt (s : State) (u : Byte) : (s.setDt u).halt = s.halt := rfl
@[simp] theorem State.setDt_cfg (s : State) (u : Byte) : (s.setDt u).cfg = s.cfg := rfl
@[simp] theorem State.setDt_rndIn (s : State) (u : Byte) : (s.setDt u).rndIn = s.rndIn := rfl
@[simp] theorem State.setDt_rndCount (s : State) (u : Byte) : (s.setDt u).rndCount = s.rndCount := rfl
@[simp] theorem State.reg_setDt (s : State) (u : Byte) (r : Reg) : (s.setDt u).reg r = s.reg r := rfl
@[simp] theorem State.peek_setDt (s : State) (u : Byte) (b : Nat) : (s.setDt u).peek b = s.peek b := rfl
@[simp] theorem State.cell_setDt (s : State) (u : Byte) (p : Cell) : (s.setDt u).cell p = s.cell p := rfl

/-! ### `State.setSt` -/

@[simp] theorem State.setSt_mem (s : State) (u : Byte) : (s.setSt u).mem = s.mem := rfl
@[simp] theorem State.setSt_v (s : State) (u : Byte) : (s.setSt u).v = s.v := rfl
@[simp] theorem State.setSt_i (s : State) (u : Byte) : (s.setSt u).i = s.i := rfl
@[simp] theorem State.setSt_pc (s : State) (u : Byte) : (s.setSt u).pc = s.pc := rfl
@[simp] theorem State.setSt_stack (s : State) (u : Byte) : (s.setSt u).stack = s.stack := rfl
@[simp] theorem State.setSt_sp (s : State) (u : Byte) : (s.setSt u).sp = s.sp := rfl
@[simp] theorem State.setSt_disp (s : State) (u : Byte) : (s.setSt u).disp = s.disp := rfl
@[simp] theorem State.setSt_key (s : State) (u : Byte) : (s.setSt u).key = s.key := rfl
@[simp] theorem State.setSt_dt (s : State) (u : Byte) : (s.setSt u).dt = s.dt := rfl
@[simp] theorem State.setSt_st (s : State) (u : Byte) : (s.setSt u).st = u := rfl
@[simp] theorem State.setSt_halt (s : State) (u : Byte) : (s.setSt u).halt = s.halt := rfl
@[simp] theorem State.setSt_cfg (s : State) (u : Byte) : (s.setSt u).cfg = s.cfg := rfl
@[simp] theorem State.setSt_rndIn (s : State) (u : Byte) : (s.setSt u).rndIn = s.rndIn := rfl
@[simp] theorem State.setSt_rndCount (s : State) (u : Byte) : (s.setSt u).rndCount = s.rndCount := rfl
@[simp] theorem State.reg_setSt (s : State) (u : Byte) (r : Reg) : (s.setSt u).reg r = s.reg r := rfl
@[simp] theorem State.peek_setSt (s : State) (u : Byte) (b : Nat) : (s.setSt u).peek b = s.peek b := rfl
@[simp] theorem State.cell_setSt (s : State) (u : Byte) (p : Cell) : (s.setSt u).cell p = s.cell p := rfl

/-! ### `State.setDisp` -/

@[simp] theorem State.setDisp_mem (s : State) (d : Display) : (s.setDisp d).mem = s.mem := rfl
@[simp] theorem State.setDisp_v (s : State) (d : Display) : (s.setDisp d).v = s.v := rfl
@[simp] theorem State.setDisp_i (s : State) (d : Display) : (s.setDisp d).i = s.i := rfl
@[simp] theorem State.setDisp_pc (s : State) (d : Display) : (s.setDisp d).pc = s.pc := rfl
@[simp] theorem State.setDisp_stack (s : State) (d : Display) : (s.setDisp d).stack = s.stack := rfl
@[simp] theorem State.setDisp_sp (s : State) (d : Display) : (s.setDisp d).sp = s.sp := rfl
@[simp] theorem State.setDisp_disp (s : State) (d : Display) : (s.setDisp d).disp = d := rfl
@[simp] theorem State.setDisp_key (s : State) (d : Display) : (s.setDisp d).key = s.key := rfl
@[simp] theorem State.setDisp_dt (s : State) (d : Display) : (s.setDisp d).dt = s.dt := rfl
@[simp] theorem State.setDisp_st (s : State) (d : Display) : (s.setDisp d).st = s.st := rfl
@[simp] theorem State.setDisp_halt (s : State) (d : Display) : (s.setDisp d).halt = s.halt := rfl
@[simp] theorem State.setDisp_cfg (s : State) (d : Display) : (s.setDisp d).cfg = s.cfg := rfl
@[simp] theorem State.setDisp_rndIn (s : State) (d : Display) : (s.setDisp d).rndIn = s.rndIn := rfl
@[simp] theorem State.setDisp_rndCount (s : State) (d : Display) : (s.setDisp d).rndCount = s.rndCount := rfl
@[simp] theorem State.reg_setDisp (s : State) (d : Display) (r : Reg) : (s.setDisp d).reg r = s.reg r := rfl
@[simp] theorem State.peek_setDisp (s : State) (d : Display) (b : Nat) : (s.setDisp d).peek b = s.peek b := rfl

/-! ### `State.advance` -/

@[simp] theorem State.advance_mem (s : State) : s.advance.mem = s.mem := rfl
@[simp] theorem State.advance_v (s : State) : s.advance.v = s.v := rfl
@[simp] theorem State.advance_i (s : State) : s.advance.i = s.i := rfl
@[simp] theorem State.advance_pc (s : State) : s.advance.pc = s.pc + 2 := rfl
@[simp] theorem State.advance_stack (s : State) : s.advance.stack = s.stack := rfl
@[simp] theorem State.advance_sp (s : State) : s.advance.sp = s.sp := rfl
@[simp] theorem State.advance_disp (s : State) : s.advance.disp = s.disp := rfl
@[simp] theorem State.advance_key (s : State) : s.advance.key = s.key := rfl
@[simp] theorem State.advance_dt (s : State) : s.advance.dt = s.dt := rfl
@[simp] theorem State.advance_st (s : State) : s.advance.st = s.st := rfl
@[simp] theorem State.advance_halt (s : State) : s.advance.halt = s.halt := rfl
@[simp] theorem State.advance_cfg (s : State) : s.advance.cfg = s.cfg := rfl
@[simp] theorem State.advance_rndIn (s : State) : s.advance.rndIn = s.rndIn := rfl
@[simp] theorem State.advance_rndCount (s : State) : s.advance.rndCount = s.rndCount := rfl
@[simp] theorem State.reg_advance (s : State) (r : Reg) : s.advance.reg r = s.reg r := rfl
@[simp] theorem State.peek_advance (s : State) (b : Nat) : s.advance.peek b = s.peek b := rfl
@[simp] theorem State.cell_advance (s : State) (p : Cell) : s.advance.cell p = s.cell p := rfl

/-! ### `State.skipIf` -/

@[simp] theorem State.skipIf_mem (s : State) (c : Bool) : (s.skipIf c).mem = s.mem := rfl
@[simp] theorem State.skipIf_v (s : State) (c : Bool) : (s.skipIf c).v = s.v := rfl
@[simp] theorem State.skipIf_i (s : State) (c : Bool) : (s.skipIf c).i = s.i := rfl
@[simp] theorem State.skipIf_pc (s : State) (c : Bool) : (s.skipIf c).pc = if c then s.pc + 4 else s.pc + 2 := rfl
@[simp] theorem State.skipIf_stack (s : State) (c : Bool) : (s.skipIf c).stack = s.stack := rfl
@[simp] theorem State.skipIf_sp (s : State) (c : Bool) : (s.skipIf c).sp = s.sp := rfl
@[simp] theorem State.skipIf_disp (s : State) (c : Bool) : (s.skipIf c).disp = s.disp := rfl
@[simp] theorem State.skipIf_key (s : State) (c : Bool) : (s.skipIf c).key = s.key := rfl
@[simp] theorem State.skipIf_dt (s : State) (c : Bool) : (s.skipIf c).dt = s.dt := rfl
@[simp] theorem State.skipIf_st (s : State) (c : Bool) : (s.skipIf c).st = s.st := rfl
@[simp] theorem State.skipIf_halt (s : State) (c : Bool) : (s.skipIf c).halt = s.halt := rfl
@[simp] theorem State.skipIf_cfg (s : State) (c : Bool) : (s.skipIf c).cfg = s.cfg := rfl
@[simp] theorem State.skipIf_rndIn (s : State) (c : Bool) : (s.skipIf c).rndIn = s.rndIn := rfl
@[simp] theorem State.skipIf_rndCount (s : State) (c : Bool) : (s.skipIf c).rndCount = s.rndCount := rfl
@[simp] theorem State.reg_skipIf (s : State) (c : Bool) (r : Reg) : (s.skipIf c).reg r = s.reg r := rfl
@[simp] theorem State.peek_skipIf (s : State) (c : Bool) (b : Nat) : (s.skipIf c).peek b = s.peek b := rfl
@[simp] theorem State.cell_skipIf (s : State) (c : Bool) (p : Cell) : (s.skipIf c).cell p = s.cell p := rfl

/-! ### `State.poke` -/

@[simp] theorem State.poke_mem (s : State) (a : Nat) (u : Byte) : (s.poke a u).mem = Memory.write s.cfg s.mem a u := rfl
@[simp] theorem State.poke_v (s : State) (a : Nat) (u : Byte) : (s.poke a u).v = s.v := rfl
@[simp] theorem State.poke_i (s : State) (a : Nat) (u : Byte) : (s.poke a u).i = s.i := rfl
@[simp] theorem State.poke_pc (s : State) (a : Nat) (u : Byte) : (s.poke a u).pc = s.pc := rfl
@[simp] theorem State.poke_stack (s : State) (a : Nat) (u : Byte) : (s.poke a u).stack = s.stack := rfl
@[simp] theorem State.poke_sp (s : State) (a : Nat) (u : Byte) : (s.poke a u).sp = s.sp := rfl
@[simp] theorem State.poke_disp (s : State) (a : Nat) (u : Byte) : (s.poke a u).disp = s.disp := rfl
@[simp] theorem State.poke_key (s : State) (a : Nat) (u : Byte) : (s.poke a u).key = s.key := rfl
@[simp] theorem State.poke_dt (s : State) (a : Nat) (u : Byte) : (s.poke a u).dt = s.dt := rfl
@[simp] theorem State.poke_st (s : State) (a : Nat) (u : Byte) : (s.poke a u).st = s.st := rfl
@[simp] theorem State.poke_halt (s : State) (a : Nat) (u : Byte) : (s.poke a u).halt = s.halt := rfl
@[simp] theorem State.poke_cfg (s : State) (a : Nat) (u : Byte) : (s.poke a u).cfg = s.cfg := rfl
@[simp] theorem State.poke_rndIn (s : State) (a : Nat) (u : Byte) : (s.poke a u).rndIn = s.rndIn := rfl
@[simp] theorem State.poke_rndCount (s : State) (a : Nat) (u : Byte) : (s.poke a u).rndCount = s.rndCount := rfl
@[simp] theorem State.reg_poke (s : State) (a : Nat) (u : Byte) (r : Reg) : (s.poke a u).reg r = s.reg r := rfl
@[simp] theorem State.cell_poke (s : State) (a : Nat) (u : Byte) (p : Cell) : (s.poke a u).cell p = s.cell p := rfl

/-! ### `State.pokes` -/

@[simp] theorem State.pokes_mem (s : State) (a : Nat) (us : List Byte) : (s.pokes a us).mem = Memory.writes s.cfg s.mem a us := rfl
@[simp] theorem State.pokes_v (s : State) (a : Nat) (us : List Byte) : (s.pokes a us).v = s.v := rfl
@[simp] theorem State.pokes_i (s : State) (a : Nat) (us : List Byte) : (s.pokes a us).i = s.i := rfl
@[simp] theorem State.pokes_pc (s : State) (a : Nat) (us : List Byte) : (s.pokes a us).pc = s.pc := rfl
@[simp] theorem State.pokes_stack (s : State) (a : Nat) (us : List Byte) : (s.pokes a us).stack = s.stack := rfl
@[simp] theorem State.pokes_sp (s : State) (a : Nat) (us : List Byte) : (s.pokes a us).sp = s.sp := rfl
@[simp] theorem State.pokes_disp (s : State) (a : Nat) (us : List Byte) : (s.pokes a us).disp = s.disp := rfl
@[simp] theorem State.pokes_key (s : State) (a : Nat) (us : List Byte) : (s.pokes a us).key = s.key := rfl
@[simp] theorem State.pokes_dt (s : State) (a : Nat) (us : List Byte) : (s.pokes a us).dt = s.dt := rfl
@[simp] theorem State.pokes_st (s : State) (a : Nat) (us : List Byte) : (s.pokes a us).st = s.st := rfl
@[simp] theorem State.pokes_halt (s : State) (a : Nat) (us : List Byte) : (s.pokes a us).halt = s.halt := rfl
@[simp] theorem State.pokes_cfg (s : State) (a : Nat) (us : List Byte) : (s.pokes a us).cfg = s.cfg := rfl
@[simp] theorem State.pokes_rndIn (s : State) (a : Nat) (us : List Byte) : (s.pokes a us).rndIn = s.rndIn := rfl
@[simp] theorem State.pokes_rndCount (s : State) (a : Nat) (us : List Byte) : (s.pokes a us).rndCount = s.rndCount := rfl
@[simp] theorem State.reg_pokes (s : State) (a : Nat) (us : List Byte) (r : Reg) : (s.pokes a us).reg r = s.reg r := rfl
@[simp] theorem State.cell_pokes (s : State) (a : Nat) (us : List Byte) (p : Cell) : (s.pokes a us).cell p = s.cell p := rfl

/-! ### `State.loadRegs` -/

@[simp] theorem State.loadRegs_mem (s : State) (x : Reg) (a : Nat) : (s.loadRegs x a).mem = s.mem := by dsimp only [State.loadRegs]
@[simp] theorem State.loadRegs_i (s : State) (x : Reg) (a : Nat) : (s.loadRegs x a).i = s.i := by dsimp only [State.loadRegs]
@[simp] theorem State.loadRegs_pc (s : State) (x : Reg) (a : Nat) : (s.loadRegs x a).pc = s.pc := by dsimp only [State.loadRegs]
@[simp] theorem State.loadRegs_stack (s : State) (x : Reg) (a : Nat) : (s.loadRegs x a).stack = s.stack := by dsimp only [State.loadRegs]
@[simp] theorem State.loadRegs_sp (s : State) (x : Reg) (a : Nat) : (s.loadRegs x a).sp = s.sp := by dsimp only [State.loadRegs]
@[simp] theorem State.loadRegs_disp (s : State) (x : Reg) (a : Nat) : (s.loadRegs x a).disp = s.disp := by dsimp only [State.loadRegs]
@[simp] theorem State.loadRegs_key (s : State) (x : Reg) (a : Nat) : (s.loadRegs x a).key = s.key := by dsimp only [State.loadRegs]
@[simp] theorem State.loadRegs_dt (s : State) (x : Reg) (a : Nat) : (s.loadRegs x a).dt = s.dt := by dsimp only [State.loadRegs]
@[simp] theorem State.loadRegs_st (s : State) (x : Reg) (a : Nat) : (s.loadRegs x a).st = s.st := by dsimp only [State.loadRegs]
@[simp] theorem State.loadRegs_halt (s : State) (x : Reg) (a : Nat) : (s.loadRegs x a).halt = s.halt := by dsimp only [State.loadRegs]
@[simp] theorem State.loadRegs_cfg (s : State) (x : Reg) (a : Nat) : (s.loadRegs x a).cfg = s.cfg := by dsimp only [State.loadRegs]
@[simp] theorem State.loadRegs_rndIn (s : State) (x : Reg) (a : Nat) : (s.loadRegs x a).rndIn = s.rndIn := by dsimp only [State.loadRegs]
@[simp] theorem State.loadRegs_rndCount (s : State) (x : Reg) (a : Nat) : (s.loadRegs x a).rndCount = s.rndCount := by dsimp only [State.loadRegs]
@[simp] theorem State.peek_loadRegs (s : State) (x : Reg) (a : Nat) (b : Nat) : (s.loadRegs x a).peek b = s.peek b := by dsimp only [State.peek, State.loadRegs]
@[simp] theorem State.cell_loadRegs (s : State) (x : Reg) (a : Nat) (p : Cell) : (s.loadRegs x a).cell p = s.cell p := by dsimp only [State.cell, State.loadRegs]

/-! ### `State.raiseFatal` -/

@[simp] theorem State.raiseFatal_mem (s : State) (f : Fatal) : (s.raiseFatal f).mem = s.mem := rfl
@[simp] theorem State.raiseFatal_v (s : State) (f : Fatal) : (s.raiseFatal f).v = s.v := rfl
@[simp] theorem State.raiseFatal_i (s : State) (f : Fatal) : (s.raiseFatal f).i = s.i := rfl
@[simp] theorem State.raiseFatal_pc (s : State) (f : Fatal) : (s.raiseFatal f).pc = s.pc := rfl
@[simp] theorem State.raiseFatal_stack (s : State) (f : Fatal) : (s.raiseFatal f).stack = s.stack := rfl
@[simp] theorem State.raiseFatal_sp (s : State) (f : Fatal) : (s.raiseFatal f).sp = s.sp := rfl
@[simp] theorem State.raiseFatal_disp (s : State) (f : Fatal) : (s.raiseFatal f).disp = s.disp := rfl
@[simp] theorem State.raiseFatal_key (s : State) (f : Fatal) : (s.raiseFatal f).key = s.key := rfl
@[simp] theorem State.raiseFatal_dt (s : State) (f : Fatal) : (s.raiseFatal f).dt = s.dt := rfl
@[simp] theorem State.raiseFatal_st (s : State) (f : Fatal) : (s.raiseFatal f).st = s.st := rfl
@[simp] theorem State.raiseFatal_halt (s : State) (f : Fatal) : (s.raiseFatal f).halt = some f := rfl
@[simp] theorem State.raiseFatal_cfg (s : State) (f : Fatal) : (s.raiseFatal f).cfg = s.cfg := rfl
@[simp] theorem State.raiseFatal_rndIn (s : State) (f : Fatal) : (s.raiseFatal f).rndIn = s.rndIn := rfl
@[simp] theorem State.raiseFatal_rndCount (s : State) (f : Fatal) : (s.raiseFatal f).rndCount = s.rndCount := rfl
@[simp] theorem State.reg_raiseFatal (s : State) (f : Fatal) (r : Reg) : (s.raiseFatal f).reg r = s.reg r := rfl
@[simp] theorem State.peek_raiseFatal (s : State) (f : Fatal) (b : Nat) : (s.raiseFatal f).peek b = s.peek b := rfl
@[simp] theorem State.cell_raiseFatal (s : State) (f : Fatal) (p : Cell) : (s.raiseFatal f).cell p = s.cell p := rfl

/-! ### `State.housekeeping` -/

@[simp] theorem State.housekeeping_mem (s : State) : s.housekeeping.mem = s.mem := rfl
@[simp] theorem State.housekeeping_v (s : State) : s.housekeeping.v = s.v := rfl
@[simp] theorem State.housekeeping_i (s : State) : s.housekeeping.i = s.i := rfl
@[simp] theorem State.housekeeping_pc (s : State) : s.housekeeping.pc = s.pc := rfl
@[simp] theorem State.housekeeping_stack (s : State) : s.housekeeping.stack = s.stack := rfl
@[simp] theorem State.housekeeping_sp (s : State) : s.housekeeping.sp = s.sp := rfl
@[simp] theorem State.housekeeping_disp (s : State) : s.housekeeping.disp = s.disp := rfl
@[simp] theorem State.housekeeping_key (s : State) : s.housekeeping.key = s.key := rfl
@[simp] theorem State.housekeeping_dt (s : State) : s.housekeeping.dt = countDown s.dt := rfl
@[simp] theorem State.housekeeping_st (s : State) : s.housekeeping.st = countDown s.st := rfl
@[simp] theorem State.housekeeping_halt (s : State) : s.housekeeping.halt = s.halt := rfl
@[simp] theorem State.housekeeping_cfg (s : State) : s.housekeeping.cfg = s.cfg := rfl
@[simp] theorem State.housekeeping_rndIn (s : State) : s.housekeeping.rndIn = s.rndIn := rfl
@[simp] theorem State.housekeeping_rndCount (s : State) : s.housekeeping.rndCount = s.rndCount := rfl
@[simp] theorem State.reg_housekeeping (s : State) (r : Reg) : s.housekeeping.reg r = s.reg r := rfl
@[simp] theorem State.peek_housekeeping (s : State) (b : Nat) : s.housekeeping.peek b = s.peek b := rfl
@[simp] theorem State.cell_housekeeping (s : State) (p : Cell) : s.housekeeping.cell p = s.cell p := rfl

/-! ### `State.setKeys` -/

@[simp] theorem State.setKeys_mem (s : State) (k : Word) : (s.setKeys k).mem = s.mem := by dsimp only [State.setKeys]
@[simp] theorem State.setKeys_v (s : State) (k : Word) : (s.setKeys k).v = s.v := by dsimp only [State.setKeys]
@[simp] theorem State.setKeys_i (s : State) (k : Word) : (s.setKeys k).i = s.i := by dsimp only [State.setKeys]
@[simp] theorem State.setKeys_pc (s : State) (k : Word) : (s.setKeys k).pc = s.pc := by dsimp only [State.setKeys]
@[simp] theorem State.setKeys_stack (s : State) (k : Word) : (s.setKeys k).stack = s.stack := by dsimp only [State.setKeys]
@[simp] theorem State.setKeys_sp (s : State) (k : Word) : (s.setKeys k).sp = s.sp := by dsimp only [State.setKeys]
@[simp] theorem State.setKeys_disp (s : State) (k : Word) : (s.setKeys k).disp = s.disp := by dsimp only [State.setKeys]
@[simp] theorem State.setKeys_dt (s : State) (k : Word) : (s.setKeys k).dt = s.dt := by dsimp only [State.setKeys]
@[simp] theorem State.setKeys_st (s : State) (k : Word) : (s.setKeys k).st = s.st := by dsimp only [State.setKeys]
@[simp] theorem State.setKeys_halt (s : State) (k : Word) : (s.setKeys k).halt = s.halt := by dsimp only [State.setKeys]
@[simp] theorem State.setKeys_cfg (s : State) (k : Word) : (s.setKeys k).cfg = s.cfg := by dsimp only [State.setKeys]
@[simp] theorem State.setKeys_rndIn (s : State) (k : Word) : (s.setKeys k).rndIn = s.rndIn := by dsimp only [State.setKeys]
@[simp] theorem State.setKeys_rndCount (s : State) (k : Word) : (s.setKeys k).rndCount = s.rndCount := by dsimp only [State.setKeys]
@[simp] theorem State.reg_setKeys (s : State) (k : Word) (r : Reg) : (s.setKeys k).reg r = s.reg r := by dsimp only [State.reg, State.setKeys]
@[simp] theorem State.peek_setKeys (s : State) (k : Word) (b : Nat) : (s.setKeys k).peek b = s.peek b := by dsimp only [State.peek, State.setKeys]
@[simp] theorem State.cell_setKeys (s : State) (k : Word) (p : Cell) : (s.setKeys k).cell p = s.cell p := by dsimp only [State.cell, State.setKeys]

/-! ### `State.setRndIn` -/

@[simp] theorem State.setRndIn_mem (s : State) (o : Option Byte) : (s.setRndIn o).mem = s.mem := rfl
@[simp] theorem State.setRndIn_v (s : State) (o : Option Byte) : (s.setRndIn o).v = s.v := rfl
@[simp] theorem State.setRndIn_i (s : State) (o : Option Byte) : (s.setRndIn o).i = s.i := rfl
@[simp] theorem State.setRndIn_pc (s : State) (o : Option Byte) : (s.setRndIn o).pc = s.pc := rfl
@[simp] theorem State.setRndIn_stack (s : State) (o : Option Byte) : (s.setRndIn o).stack = s.stack := rfl
@[simp] theorem State.setRndIn_sp (s : State) (o : Option Byte) : (s.setRndIn o).sp = s.sp := rfl
@[simp] theorem State.setRndIn_disp (s : State) (o : Option Byte) : (s.setRndIn o).disp = s.disp := rfl
@[simp] theorem State.setRndIn_key (s : State) (o : Option Byte) : (s.setRndIn o).key = s.key := rfl
@[simp] theorem State.setRndIn_dt (s : State) (o : Option Byte) : (s.setRndIn o).dt = s.dt := rfl
@[simp] theorem State.setRndIn_st (s : State) (o : Option Byte) : (s.setRndIn o).st = s.st := rfl
@[simp] theorem State.setRndIn_halt (s : State) (o : Option Byte) : (s.setRndIn o).halt = s.halt := rfl
@[simp] theorem State.setRndIn_cfg (s : State) (o : Option Byte) : (s.setRndIn o).cfg = s.cfg := rfl
@[simp] theorem State.setRndIn_rndIn (s : State) (o : Option Byte) : (s.setRndIn o).rndIn = o := rfl
@[simp] theorem State.setRndIn_rndCount (s : State) (o : Option Byte) : (s.setRndIn o).rndCount = s.rndCount := rfl
@[simp] theorem State.reg_setRndIn (s : State) (o : Option Byte) (r : Reg) : (s.setRndIn o).reg r = s.reg r := rfl
@[simp] theorem State.peek_setRndIn (s : State) (o : Option Byte) (b : Nat) : (s.setRndIn o).peek b = s.peek b := rfl
@[simp] theorem State.cell_setRndIn (s : State) (o : Option Byte) (p : Cell) : (s.setRndIn o).cell p = s.cell p := rfl
@[simp] theorem State.keyAt_setRndIn (s : State) (o : Option Byte) (u : Byte) : (s.setRndIn o).keyAt u = s.keyAt u := rfl

@[simp] theorem Params.programBase_toNat : Params.programBase.toNat = 0x200 := by decide

/-! ### Reads of what was written -/

@[simp] theorem State.reg_setReg (s : State) (x : Reg) (u : Byte) (r : Reg) :
    (s.setReg x u).reg r = if r = x then u else s.reg r := by
  simp only [State.reg, State.setReg, Vector.getElem_set, Fin.val_inj, eq_comm]

@[simp] theorem State.cell_setDisp (s : State) (d : Display) (p : Cell) :
    (s.setDisp d).cell p = Display.get d p := rfl

theorem State.reg_loadRegs (s : State) (x : Reg) (a : Nat) (r : Reg) :
    (s.loadRegs x a).reg r = if r ≤ x then s.peek (a + r.val) else s.reg r := by
  simp [State.reg, State.loadRegs]

theorem State.key_setKeys (s : State) (k : Word) (j : Fin 16) : (s.setKeys k).key[j] = k.getLsbD j.val := by
  simp [State.setKeys]

theorem State.reg_of_v {s t : State} (h : t.v = s.v) (x : Reg) : t.reg x = s.reg x := by
  simp only [State.reg, h]

theorem State.peek_of_mem {s t : State} (hm : t.mem = s.mem) (hc : t.cfg = s.cfg) (a : Nat) : t.peek a = s.peek a := by
  simp only [State.peek, hm, hc]

/-- The random byte taken is the cycle's own, or, where none is named, the next free one. -/
theorem State.takeRnd_fst (s : State) : s.takeRnd.1 = s.rndIn.getD (Config.rndByte s.rndCount) := by
  unfold State.takeRnd
  cases s.rndIn <;> rfl

/-- Taking the random byte touches the model's own random-byte fields and nothing else. -/
theorem State.takeRnd_snd (s : State) : ∃ r n, s.takeRnd.2 = { s with rndIn := r, rndCount := n } := by
  unfold State.takeRnd
  cases h : s.rndIn with
  | some b => exact ⟨none, s.rndCount, rfl⟩
  | none => exact ⟨none, s.rndCount + 1, by simp [← h]⟩

end Sys2Proof.Machine
end

