-- ==== Sys2Proof/Laws/Memory.lean ====
section
/-! SUPPORT. Memory: what a read gives after a write, and that every memory operation keeps the canonical form. -/

namespace Sys2Proof.Machine

/-! ### Reading after writing -/

theorem Memory.lookup_erase (m : Memory) (a b : Nat) :
    Memory.lookup (Memory.erase m a) b = if b = a then none else Memory.lookup m b := by
  induction m with
  | nil => simp [Memory.erase, Memory.lookup]
  | cons e m ih =>
    obtain ⟨e, u⟩ := e
    simp only [Memory.erase] at ih ⊢
    by_cases h : e = a
    · subst h
      simp only [List.filter_cons, ne_eq, not_true, decide_false, Bool.false_eq_true, if_false, ih, Memory.lookup]
      split <;> rfl
    · simp only [List.filter_cons, ne_eq, h, not_false_eq_true, decide_true, if_true, Memory.lookup, ih]
      by_cases hb : b = e
      · simp [hb, h]
      · simp [hb]

theorem Memory.lookup_insert (m : Memory) (a : Nat) (u : Byte) (b : Nat) (h : Memory.lookup m a = none) :
    Memory.lookup (Memory.insert m a u) b = if b = a then some u else Memory.lookup m b := by
  induction m with
  | nil => simp [Memory.insert, Memory.lookup]
  | cons e m ih =>
    obtain ⟨e, t⟩ := e
    simp only [Memory.lookup] at h
    have hae : a ≠ e := by
      rintro rfl
      simp at h
    simp only [if_neg hae] at h
    unfold Memory.insert
    split
    · simp [Memory.lookup]
    · simp only [Memory.lookup, ih h]
      by_cases hb : b = e
      · simp [hb, Ne.symm hae]
      · simp [hb]

/-- A read after a write gives the byte written at its address, and every other byte as before. -/
theorem Memory.read_write (c : Config) (m : Memory) (a : Nat) (u : Byte) (b : Nat) :
    Memory.read c (Memory.write c m a u) b = if b = a then u else Memory.read c m b := by
  unfold Memory.read Memory.write
  split
  · rename_i h
    rw [Memory.lookup_erase]
    split
    · simp_all
    · rfl
  · rw [Memory.lookup_insert _ _ _ _ (by simp [Memory.lookup_erase]), Memory.lookup_erase]
    split <;> simp

/-- A read after consecutive writes. -/
theorem Memory.read_writes (c : Config) (m : Memory) (a : Nat) (us : List Byte) (b : Nat) :
    Memory.read c (Memory.writes c m a us) b =
      if h : a ≤ b ∧ b - a < us.length then us[b - a]'h.2 else Memory.read c m b := by
  induction us generalizing m a with
  | nil => simp [Memory.writes]
  | cons u us ih =>
    simp only [Memory.writes, ih, Memory.read_write, List.length_cons]
    by_cases h : b = a
    · subst h
      simp
    · by_cases h2 : a + 1 ≤ b ∧ b - (a + 1) < us.length
      · have h3 : b - a = b - (a + 1) + 1 := by omega
        simp [h2, h3, show a ≤ b by omega]
      · rw [dif_neg h2, if_neg h, dif_neg (by omega)]

@[simp] theorem State.peek_poke (s : State) (a : Nat) (u : Byte) (b : Nat) :
    (s.poke a u).peek b = if b = a then u else s.peek b :=
  Memory.read_write s.cfg s.mem a u b

theorem State.peek_pokes (s : State) (a : Nat) (us : List Byte) (b : Nat) :
    (s.pokes a us).peek b = if h : a ≤ b ∧ b - a < us.length then us[b - a]'h.2 else s.peek b :=
  Memory.read_writes s.cfg s.mem a us b

/-- Memory outside the bytes stored is unchanged. -/
theorem State.peek_pokes_outside (s : State) (a : Nat) (us : List Byte) (b : Nat) (h : b < a ∨ a + us.length ≤ b) :
    (s.pokes a us).peek b = s.peek b := by
  rw [State.peek_pokes, dif_neg (by omega)]

/-- An address reads as its background where the memory lists nothing. -/
theorem Memory.read_nil (c : Config) (a : Nat) : Memory.read c [] a = Memory.background c a := rfl

/-- Taking out the listed cells below an address makes those addresses read as their background. -/
theorem Memory.lookup_filter_ge (m : Memory) (k b : Nat) :
    Memory.lookup (m.filter fun e => decide (k ≤ e.1)) b = if k ≤ b then Memory.lookup m b else none := by
  induction m with
  | nil => simp [Memory.lookup]
  | cons e m ih =>
    obtain ⟨e, u⟩ := e
    by_cases h : k ≤ e
    · simp only [List.filter_cons, h, decide_true, if_true, Memory.lookup, ih]
      by_cases hb : b = e
      · simp [hb, h]
      · simp [hb]
    · simp only [List.filter_cons, h, decide_false, Bool.false_eq_true, if_false, ih, Memory.lookup]
      by_cases hk : k ≤ b
      · simp [hk, show b ≠ e by omega]
      · simp [hk]

/-! ### The canonical form -/

theorem Memory.wf_cons {c : Config} {a : Nat} {u : Byte} {m : Memory} :
    Memory.wf c ((a, u) :: m) = true ↔
      a < c.memSize ∧ u ≠ Memory.background c a ∧ (∀ e ∈ m, a < e.1) ∧ Memory.wf c m = true := by
  simp only [Memory.wf, Bool.and_eq_true, decide_eq_true_eq, List.all_eq_true, and_assoc]

/-- Leaving cells out keeps the canonical form. -/
theorem Memory.wf_filter {c : Config} {m : Memory} (h : Memory.wf c m = true) (p : Host.Cell → Bool) :
    Memory.wf c (m.filter p) = true := by
  induction m with
  | nil => rfl
  | cons e m ih =>
    obtain ⟨a, u⟩ := e
    obtain ⟨h1, h2, h3, h4⟩ := Memory.wf_cons.1 h
    rw [List.filter_cons]
    split
    · exact Memory.wf_cons.2 ⟨h1, h2, fun e he => h3 e (List.mem_filter.1 he).1, ih h4⟩
    · exact ih h4

theorem Memory.mem_insert {m : Memory} {a : Nat} {u : Byte} {e : Host.Cell} :
    e ∈ Memory.insert m a u ↔ e = (a, u) ∨ e ∈ m := by
  induction m with
  | nil => simp [Memory.insert]
  | cons d m ih =>
    unfold Memory.insert
    split
    · simp
    · simp only [List.mem_cons, ih]
      tauto

/-- Putting in a cell at a new address keeps the canonical form. -/
theorem Memory.wf_insert {c : Config} {m : Memory} {a : Nat} {u : Byte} (h : Memory.wf c m = true)
    (ha : a < c.memSize) (hu : u ≠ Memory.background c a) (hn : ∀ e ∈ m, e.1 ≠ a) :
    Memory.wf c (Memory.insert m a u) = true := by
  induction m with
  | nil => simpa [Memory.insert, Memory.wf] using ⟨ha, hu⟩
  | cons d m ih =>
    obtain ⟨b, t⟩ := d
    obtain ⟨h1, h2, h3, h4⟩ := Memory.wf_cons.1 h
    have hb : b ≠ a := hn (b, t) (by simp)
    unfold Memory.insert
    split
    · rename_i hab
      refine Memory.wf_cons.2 ⟨ha, hu, fun e he => ?_, h⟩
      rcases List.mem_cons.1 he with rfl | he
      · exact hab
      · exact Nat.lt_trans hab (h3 e he)
    · rename_i hab
      refine Memory.wf_cons.2 ⟨h1, h2, fun e he => ?_, ih h4 fun e he => hn e (List.mem_cons_of_mem _ he)⟩
      rcases Memory.mem_insert.1 he with rfl | he
      · omega
      · exact h3 e he

/-- A write inside memory keeps the canonical form. -/
theorem Memory.wf_write {c : Config} {m : Memory} {a : Nat} {u : Byte} (h : Memory.wf c m = true)
    (ha : a < c.memSize) : Memory.wf c (Memory.write c m a u) = true := by
  unfold Memory.write
  split
  · exact Memory.wf_filter h _
  · refine Memory.wf_insert (Memory.wf_filter h _) ha ‹_› fun e he => ?_
    simpa [Memory.erase] using (List.mem_filter.1 he).2

/-- Consecutive writes inside memory keep the canonical form. -/
theorem Memory.wf_writes {c : Config} {m : Memory} {a : Nat} {us : List Byte} (h : Memory.wf c m = true)
    (ha : us = [] ∨ a + us.length ≤ c.memSize) : Memory.wf c (Memory.writes c m a us) = true := by
  induction us generalizing m a with
  | nil => exact h
  | cons u us ih =>
    have hl : a + (us.length + 1) ≤ c.memSize := by simpa using ha
    exact ih (Memory.wf_write h (by omega)) (Or.inr (by omega))

end Sys2Proof.Machine
end

