-- ==== Sys2Proof/Laws/Ops.lean ====
section
/-! SUPPORT. One lemma for each shared operation, saying once everything it can do. -/

namespace Sys2Proof.Machine

/-! ### The bounds check and the end of a meaning -/

/-- The first address of a range that is outside memory: the larger of the range's start and `MEM_SIZE` (R56). -/
theorem State.checkRange_eq (s : State) (a n : Nat) :
    s.checkRange a n =
      if n = 0 ∨ a + n ≤ s.cfg.memSize then .ok () else .error (.memoryBounds (max a s.cfg.memSize)) := by
  unfold State.checkRange
  suffices h : (List.range' a n).find? (fun b => decide (s.cfg.memSize ≤ b)) =
      if n = 0 ∨ a + n ≤ s.cfg.memSize then none else some (max a s.cfg.memSize) by
    rw [h]
    by_cases hc : n = 0 ∨ a + n ≤ s.cfg.memSize
    · simp only [if_pos hc]
    · simp only [if_neg hc]
  induction n generalizing a with
  | zero => simp
  | succ n ih =>
    rw [List.range'_succ, List.find?_cons, ih]
    by_cases h : s.cfg.memSize ≤ a
    · simp only [h, decide_true, Nat.add_one_ne_zero, false_or, max_eq_left]
      rw [if_neg (by omega)]
    · simp only [h, decide_false]
      by_cases h2 : n = 0
      · subst h2
        rw [if_pos (Or.inl rfl), if_pos (Or.inr (by omega))]
      · simp only [h2, false_or, Nat.add_one_ne_zero]
        split
        · rw [if_pos (by omega)]
        · rw [if_neg (by omega)]
          congr 1
          omega

@[simp] theorem State.commit_ok (s t : State) : s.commit (.ok t) = .next t := rfl

@[simp] theorem State.commit_error (s : State) (f : Fatal) : s.commit (.error f) = .next { s with halt := some f } := rfl

/-- A meaning that ends in `commit` answers its own result, or the halted state entered from where it began. -/
theorem State.commit_cases {s t : State} {r : Except Fatal State} (h : s.commit r = .next t) :
    r = .ok t ∨ ∃ f, r = .error f ∧ t = { s with halt := some f } := by
  cases r with
  | ok u => exact .inl (by simpa using h)
  | error f => exact .inr ⟨f, rfl, by simpa using h.symm⟩

@[simp] theorem except_map_ok {α β : Type} (g : α → β) (a : α) :
    Except.map g (.ok a : Except Fatal α) = .ok (g a) := rfl

@[simp] theorem except_map_error {α β : Type} (g : α → β) (f : Fatal) :
    Except.map g (.error f : Except Fatal α) = .error f := rfl

/-! ### Stack -/

theorem State.push_of_lt (s : State) (u : Word) (k : Fin 16) (h : s.sp.val = k.val) :
    s.push u = .ok { s with stack := s.stack.set k.val u k.isLt, sp := k.succ } := by
  unfold State.push
  rw [dif_pos (by omega)]
  simp only [h]
  rfl

theorem State.push_full (s : State) (u : Word) (h : s.sp.val = 16) : s.push u = .error (.stackOverflow s.pc) := by
  unfold State.push
  rw [dif_neg (by omega)]

theorem State.pop_of_succ (s : State) (k : Fin 16) (h : s.sp.val = k.val + 1) :
    s.pop = .ok (s.stack[k], { s with sp := k.castSucc }) := by
  unfold State.pop
  rw [dif_pos (by omega)]
  simp only [h, Nat.add_sub_cancel]
  rfl

theorem State.pop_empty (s : State) (h : s.sp.val = 0) : s.pop = .error (.stackUnderflow s.pc) := by
  unfold State.pop
  rw [dif_neg (by omega)]

/-- A stack is empty, or holds an entry below `SP`. -/
theorem State.sp_cases (s : State) : s.sp.val = 0 ∨ ∃ k : Fin 16, s.sp.val = k.val + 1 := by
  rcases Nat.eq_zero_or_pos s.sp.val with h | h
  · exact .inl h
  · exact .inr ⟨⟨s.sp.val - 1, by omega⟩, by simp; omega⟩

/-- A stack is full, or has a slot at `SP`. -/
theorem State.sp_cases_full (s : State) : s.sp.val = 16 ∨ ∃ k : Fin 16, s.sp.val = k.val := by
  by_cases h : s.sp.val = 16
  · exact .inl h
  · exact .inr ⟨⟨s.sp.val, by omega⟩, rfl⟩

/-! ### The result-and-flag write -/

/-- The result-and-flag write: the later write, by `FLAG_ORDER`, is what remains in `V[0xF]` (R157). -/
theorem State.writeRF_reg (s : State) (x : Reg) (r : Byte) (f : Bool) (j : Reg) :
    (s.writeRF x r f).reg j =
      if j = flagReg ∧ (x ≠ flagReg ∨ s.cfg.flagOrder = .flagLast) then flagByte f
      else if j = x then r else s.reg j := by
  unfold State.writeRF
  cases s.cfg.flagOrder <;> by_cases hx : x = flagReg <;> by_cases hj : j = flagReg <;> (simp [hx, hj]; try grind)

/-- The result-and-flag write changes the register file and `PC` and nothing else. -/
theorem State.writeRF_eq (s : State) (x : Reg) (r : Byte) (f : Bool) :
    s.writeRF x r f = { s with v := (s.writeRF x r f).v, pc := s.pc + 2 } := by
  unfold State.writeRF
  cases s.cfg.flagOrder <;> rfl

/-! ### Keys -/

theorem State.keyAt_of_lt (s : State) (u : Byte) (k : Fin 16) (h : u.toNat = k.val) : s.keyAt u = .ok s.key[k] := by
  unfold State.keyAt
  rw [dif_pos (by omega)]
  simp only [h]
  rfl

theorem State.keyAt_mask (s : State) (u : Byte) (k : Fin 16) (hp : s.cfg.keyIndexPolicy = .mask)
    (h : u.toNat % 16 = k.val) : s.keyAt u = .ok s.key[k] := by
  unfold State.keyAt
  split
  · rename_i hlt
    simp only [show u.toNat = k.val by omega]
    rfl
  · simp only [hp, h]
    rfl

theorem State.keyAt_fault (s : State) (u : Byte) (h : 16 ≤ u.toNat) (hp : s.cfg.keyIndexPolicy = .fault) :
    s.keyAt u = .error (.keyIndexRange u) := by
  unfold State.keyAt
  rw [dif_neg (by omega), hp]

/-- A key number gives a key, or the fatal outcome that names the number (R226). -/
theorem State.keyAt_cases (s : State) (u : Byte) :
    (∃ k : Fin 16, s.keyAt u = .ok s.key[k]) ∨ s.keyAt u = .error (.keyIndexRange u) := by
  by_cases h : u.toNat < 16
  · exact .inl ⟨⟨u.toNat, h⟩, State.keyAt_of_lt _ _ _ rfl⟩
  · cases hp : s.cfg.keyIndexPolicy
    · exact .inr (State.keyAt_fault _ _ (by omega) hp)
    · exact .inl ⟨⟨u.toNat % 16, by omega⟩, State.keyAt_mask _ _ _ hp rfl⟩

/-- The ascending scan ends with the highest-numbered key that is pressed. -/
theorem State.lastPressed_eq_some (s : State) (k : Fin 16) (hk : s.key[k] = true)
    (hj : ∀ j : Fin 16, k < j → s.key[j] = false) : s.lastPressed = some k := by
  have split16 : List.finRange 16 = (List.finRange 16).filter (fun j => decide (j < k)) ++ k ::
      (List.finRange 16).filter (fun j => decide (k < j)) := by
    clear hk hj
    revert k
    decide
  have skip : ∀ (l : List (Fin 16)) (o : Option Reg), (∀ j ∈ l, s.key[j] = false) →
      l.foldl (fun last j => if s.key[j.val] then some j else last) o = o := by
    intro l
    induction l with
    | nil => intros; rfl
    | cons j l ih =>
      intro o h
      have : s.key[j.val] = false := h j (by simp)
      simp only [List.foldl_cons, this, Bool.false_eq_true, if_false]
      exact ih o fun i hi => h i (List.mem_cons_of_mem _ hi)
  unfold State.lastPressed
  rw [split16, List.foldl_append, List.foldl_cons]
  have : s.key[k.val] = true := hk
  simp only [this, if_true]
  exact skip _ _ fun j hj' => hj j (by simpa using hj')

theorem State.lastPressed_eq_none (s : State) (h : ∀ k : Fin 16, s.key[k] = false) : s.lastPressed = none := by
  have : ∀ l : List (Fin 16), l.foldl (fun last k => if s.key[k.val] then some k else last) (none : Option Reg) = none := by
    intro l
    induction l with
    | nil => rfl
    | cons j l ih =>
      have : s.key[j.val] = false := h j
      simp only [List.foldl_cons, this, Bool.false_eq_true, if_false, ih]
  exact this _

/-- Either no key is pressed, or one is the highest-numbered that is. -/
theorem State.pressed_cases (s : State) :
    (∀ k : Fin 16, s.key[k] = false) ∨
      ∃ k : Fin 16, s.key[k] = true ∧ ∀ j : Fin 16, k < j → s.key[j] = false := by
  by_cases h : ∃ k : Fin 16, s.key[k] = true
  · right
    let S := Finset.univ.filter fun k : Fin 16 => s.key[k] = true
    have hS : S.Nonempty := ⟨h.choose, by simpa [S] using h.choose_spec⟩
    refine ⟨S.max' hS, by simpa [S] using S.max'_mem hS, fun j hj => ?_⟩
    by_contra hn
    exact absurd (S.le_max' j (by simpa [S] using hn)) (not_le.2 hj)
  · left
    intro k
    simpa using fun hk => h ⟨k, hk⟩

/-! ### Timers -/

theorem countDown_toNat (u : Byte) : (countDown u).toNat = u.toNat - 1 := by
  unfold countDown
  split
  · simp_all
  · rename_i h
    have : u.toNat ≠ 0 := fun h0 => h (BitVec.eq_of_toNat_eq (by simpa using h0))
    rw [BitVec.toNat_sub]
    have := u.isLt
    simp
    omega

end Sys2Proof.Machine
end

