-- ==== Sys2Proof/Laws/Cycle.lean ====
section
/-! SUPPORT. The cycle, stage by stage (R101): one equation for each way it can end, and the placing of a word. -/

namespace Sys2Proof.Machine

theorem runCycle_halted {s : State} {f : Fatal} (h : s.halt = some f) : runCycle s = .next (s.endFatal f) := by
  unfold runCycle
  rw [h]

theorem runCycle_fetch_error {s : State} {f : Fatal} (h : s.halt = none) (hf : s.fetch = .error f) :
    runCycle s = .next ((s.raiseFatal f).endFatal f) := by
  unfold runCycle
  rw [h, hf]

theorem runCycle_unknown {s : State} {w : Word} {e : DecodeError} (h : s.halt = none) (hf : s.fetch = .ok w)
    (hd : decodeWord w = .error e) : runCycle s = .next (s.skipUnknown.endCycle (.unknownInstruction w)) := by
  unfold runCycle
  rw [h, hf]
  simp only [hd]

theorem runCycle_exec {s t : State} {w : Word} {i : Instr} (h : s.halt = none) (hf : s.fetch = .ok w)
    (hd : decodeWord w = .ok i) (he : exec i s = .next t) : runCycle s = .next t.endExec := by
  unfold runCycle
  rw [h, hf]
  simp only [hd, he]

/-- Every meaning answers a next state. -/
theorem exec_answers (i : Instr) (s : State) : ∃ t, exec i s = .next t := by
  have hc : ∀ r, ∃ t, s.commit r = .next t := fun r => by cases r <;> exact ⟨_, rfl⟩
  cases i with
  | seReg x y =>
    simp only [exec, execSeReg]
    split <;> exact ⟨_, rfl⟩
  | ldVxK x =>
    simp only [exec, execLdVxK]
    split <;> exact ⟨_, rfl⟩
  | _ => first
    | exact ⟨_, rfl⟩
    | exact hc _

/-- What one cycle can do: the four ways it ends, in the priority of R247. -/
theorem runCycle_cases {s : State} {r : CycleResult} (h : runCycle s = .next r) :
    (∃ f, s.halt = some f ∧ r = s.endFatal f) ∨
    (s.halt = none ∧ ∃ f, s.fetch = .error f ∧ r = (s.raiseFatal f).endFatal f) ∨
    (s.halt = none ∧ ∃ w e, s.fetch = .ok w ∧ decodeWord w = .error e ∧
      r = s.skipUnknown.endCycle (.unknownInstruction w)) ∨
    (s.halt = none ∧ ∃ w i t, s.fetch = .ok w ∧ decodeWord w = .ok i ∧ exec i s = .next t ∧ r = t.endExec) := by
  cases hh : s.halt with
  | some f =>
    rw [runCycle_halted hh] at h
    cases h
    exact .inl ⟨f, rfl, rfl⟩
  | none =>
    cases hf : s.fetch with
    | error f =>
      rw [runCycle_fetch_error hh hf] at h
      cases h
      exact .inr (.inl ⟨rfl, f, rfl, rfl⟩)
    | ok w =>
      cases hd : decodeWord w with
      | error e =>
        rw [runCycle_unknown hh hf hd] at h
        cases h
        exact .inr (.inr (.inl ⟨rfl, w, e, rfl, hd, rfl⟩))
      | ok i =>
        obtain ⟨t, ht⟩ := exec_answers i s
        rw [runCycle_exec hh hf hd ht] at h
        cases h
        exact .inr (.inr (.inr ⟨rfl, w, i, t, rfl, hd, ht, rfl⟩))

/-- A step is the cycle with its outputs dropped. -/
theorem step_of_runCycle {s : State} {r : CycleResult} (h : runCycle s = .next r) : step s = .next r.state := by
  unfold step
  rw [h]
  rfl

theorem runCycle_of_step {s t : State} (h : step s = .next t) : ∃ r, runCycle s = .next r ∧ r.state = t := by
  unfold step at h
  cases hr : runCycle s <;> rw [hr] at h <;> simp [stateOf] at h
  exact ⟨_, rfl, h⟩

theorem State.endExec_of_halted {t : State} {f : Fatal} (h : t.halt = some f) : t.endExec = t.endFatal f := by
  unfold State.endExec
  rw [h]

theorem State.endExec_of_running {t : State} (h : t.halt = none) : t.endExec = t.endCycle .ok := by
  unfold State.endExec
  rw [h]

/-- The random byte is not read by the fetch (R101). -/
@[simp] theorem State.fetch_setRndIn (s : State) (o : Option Byte) : (s.setRndIn o).fetch = s.fetch := rfl

/-- The instruction of the next cycle is the one its fetched word decodes to. -/
theorem State.current_eq_some {s : State} {i : Instr} :
    s.current = some i ↔ ∃ w, s.fetch = .ok w ∧ decodeWord w = .ok i := by
  unfold State.current
  cases hf : s.fetch with
  | error f => simp
  | ok w =>
    cases hd : decodeWord w with
    | error e => simp [hd, Except.toOption]
    | ok j => simp [hd, Except.toOption]

theorem State.skipUnknown_eq (s : State) : s.skipUnknown = { s with pc := s.skipUnknown.pc } := by
  unfold State.skipUnknown
  split <;> rfl

/-- A word placed where the next cycle fetches is the word it fetches, wherever memory holds `PROGRAM_BASE`. -/
theorem State.fetch_placeWord (s : State) (nbits w : Nat) (h : Params.programBase.toNat + 1 < s.cfg.memSize) :
    (s.placeWord nbits w).halt = none ∧ (s.placeWord nbits w).fetch = .ok (tableWord nbits w) := by
  refine ⟨rfl, ?_⟩
  have hpc : (s.placeWord nbits w).pc.toNat + 1 < s.cfg.memSize := by
    show (if s.pc.toNat + 1 < s.cfg.memSize then s.pc else Params.programBase).toNat + 1 < s.cfg.memSize
    split
    · assumption
    · exact h
  have hcfg : (s.placeWord nbits w).cfg = s.cfg := rfl
  have hpeek : ∀ b, (s.placeWord nbits w).peek b =
      if b = (s.placeWord nbits w).pc.toNat + 1 then lowByte (tableWord nbits w)
      else if b = (s.placeWord nbits w).pc.toNat then highByte (tableWord nbits w) else s.peek b := by
    intro b
    unfold State.placeWord
    simp only [State.peek_poke]
    rfl
  unfold State.fetch
  rw [hcfg, if_neg (by omega), if_neg (by omega), hpeek, hpeek, if_neg (by omega), if_pos rfl, if_pos rfl,
    wordOfBytes_bytes]

/-! ### Keeping the canonical form -/

theorem State.memOk_poke {s : State} (h : s.MemOk) {a : Nat} (u : Byte) (ha : a < s.cfg.memSize) : (s.poke a u).MemOk :=
  Memory.wf_write h ha

theorem State.memOk_pokes {s : State} (h : s.MemOk) {a : Nat} (us : List Byte)
    (ha : us = [] ∨ a + us.length ≤ s.cfg.memSize) : (s.pokes a us).MemOk :=
  Memory.wf_writes h ha

end Sys2Proof.Machine
end

