-- ==== Sys2Proof/Laws/Frames.lean ====
section
/-! SUPPORT. Frames from field equations, and the effect of the shared ends of the meanings. -/

namespace Sys2Proof.Machine

/-- A part is kept where the fields it is read through are; `simp` closes the hypothesis for a state made by named
updates. -/
theorem keepsBut_of {ps : List Part} {s t : State}
    (h : (Part.mem ∈ ps ∨ t.mem = s.mem ∧ t.cfg = s.cfg) ∧ (Part.regs ∈ ps ∨ t.v = s.v) ∧ (Part.index ∈ ps ∨ t.i = s.i) ∧
      (Part.pc ∈ ps ∨ t.pc = s.pc) ∧ (Part.stack ∈ ps ∨ t.stack = s.stack) ∧ (Part.sp ∈ ps ∨ t.sp = s.sp) ∧
      (Part.display ∈ ps ∨ t.disp = s.disp) ∧ (Part.keys ∈ ps ∨ t.key = s.key) ∧ (Part.dt ∈ ps ∨ t.dt = s.dt) ∧
      (Part.st ∈ ps ∨ t.st = s.st) ∧ (Part.halt ∈ ps ∨ t.halt = s.halt) ∧ (Part.config ∈ ps ∨ t.cfg = s.cfg) ∧
      (Part.random ∈ ps ∨ t.rndIn = s.rndIn ∧ t.rndCount = s.rndCount)) : KeepsBut ps s t := by
  obtain ⟨h1, h2, h3, h4, h5, h6, h7, h8, h9, h10, h11, h12, h13⟩ := h
  intro p hp
  cases p with
  | mem => exact fun a => State.peek_of_mem (h1.resolve_left hp).1 (h1.resolve_left hp).2 a
  | regs => exact State.reg_of_v (h2.resolve_left hp)
  | index => exact h3.resolve_left hp
  | pc => exact h4.resolve_left hp
  | stack => exact fun k => by rw [h5.resolve_left hp]
  | sp => exact h6.resolve_left hp
  | display => exact fun q => by simp only [State.cell, h7.resolve_left hp]
  | keys => exact fun k => by rw [h8.resolve_left hp]
  | dt => exact h9.resolve_left hp
  | st => exact h10.resolve_left hp
  | halt => exact h11.resolve_left hp
  | config => exact h12.resolve_left hp
  | random => exact h13.resolve_left hp

theorem keepsBut_refl (ps : List Part) (s : State) : KeepsBut ps s s := keepsBut_of (by simp)

/-- Each part kept is kept along two changes. -/
theorem keepsBut_trans {ps : List Part} {s t u : State} (h : KeepsBut ps s t) (h' : KeepsBut ps t u) :
    KeepsBut ps s u := by
  intro p hp
  have h1 := h p hp
  have h2 := h' p hp
  cases p <;> first
    | exact h2.trans h1
    | exact fun a => (h2 a).trans (h1 a)
    | exact ⟨h2.1.trans h1.1, h2.2.trans h1.2⟩

theorem pcAdds_advance_of {s t : State} (h : t.pc = s.pc) : PcAdds 2 s t.advance := by
  simp [PcAdds, BitVec.toNat_add, h]

theorem pcAdds_skipIf_true (s : State) : PcAdds 4 s (s.skipIf true) := by
  simp [PcAdds, BitVec.toNat_add]

theorem pcAdds_skipIf_false (s : State) : PcAdds 2 s (s.skipIf false) := by
  simp [PcAdds, BitVec.toNat_add]

/-- A meaning that ends in one register write and "advance". -/
theorem writesRegister_of {i : Instr} {x : Reg} {val : State → Int} (g : State → Byte)
    (h : ∀ s, exec i s = .next (s.setReg x (g s)).advance) (hv : ∀ s, ((g s).toNat : Int) = val s) :
    WritesRegister i x val := by
  intro s
  refine ⟨_, h s, by simp [hv], pcAdds_advance_of rfl, fun j hj => ?_, keepsBut_of (by simp)⟩
  simp only [List.mem_singleton] at hj
  simp [hj]

/-- A meaning that ends in the result-and-flag write. -/
theorem writesResultAndFlag_of {i : Instr} {x : Reg} {r f : State → Int} (g : State → Byte) (b : State → Bool)
    (h : ∀ s, exec i s = .next (s.writeRF x (g s) (b s))) (hr : ∀ s, ((g s).toNat : Int) = r s)
    (hf : ∀ s, ((flagByte (b s)).toNat : Int) = f s) : WritesResultAndFlag i x r f := by
  intro s
  refine ⟨_, h s, ?_, fun hx => ?_, fun hx ho => ?_, fun hx ho => ?_, fun j hj => ?_, ?_⟩
  · rw [State.writeRF_eq]
    simp [PcAdds, BitVec.toNat_add]
  · simp [State.writeRF_reg, hx, hr, hf]
  · simp [State.writeRF_reg, hx, ho, hf]
  · simp [State.writeRF_reg, hx, ho, hr]
  · simp only [List.mem_cons, List.not_mem_nil, or_false, not_or] at hj
    simp [State.writeRF_reg, hj]
  · rw [State.writeRF_eq]
    exact keepsBut_of (by simp)

/-- A meaning that ends in a conditional skip. -/
theorem skipsWhen_of {i : Instr} {c : State → Prop} (b : State → Bool) (h : ∀ s, exec i s = .next (s.skipIf (b s)))
    (hb : ∀ s, b s = true ↔ c s) : SkipsWhen i c := by
  intro s
  refine ⟨_, h s, fun hc => ?_, fun hc => ?_, keepsBut_of (by simp)⟩
  · rw [(hb s).2 hc]
    exact pcAdds_skipIf_true s
  · rw [show b s = false by simpa using fun h => hc ((hb s).1 h)]
    exact pcAdds_skipIf_false s

/-- A meaning that ends in a write of `I` and "advance". -/
theorem writesIndex_of {i : Instr} {val : State → Nat} (g : State → Word)
    (h : ∀ s, exec i s = .next (s.setIndex (g s)).advance) (hv : ∀ s, (g s).toNat = val s) : WritesIndex i val := by
  intro s
  exact ⟨_, h s, by simp [hv], pcAdds_advance_of rfl, keepsBut_of (by simp)⟩

end Sys2Proof.Machine
end

