-- ==== Sys2Proof/Laws/PerInstr.lean ====
section
/-! SUPPORT. Laws of every instruction, one lemma per constructor. `EncodeRow`: the word of an instruction lies in its own
row of the opcode map (R85, R90). -/

namespace Sys2Proof.Laws.EncodeRow

/-- The encoded word matches the mask and value of the instruction's row. -/
def Statement (i : Instr) : Prop := encode i &&& i.op.mask = i.op.value

theorem layoutA_and (f : BitVec 4) (nnn : Addr12) : (layoutA f nnn &&& 0xF000).toNat = f.toNat * 4096 := by
  rw [and_mask_family, layoutA_toNat]
  have := nnn.isLt
  omega

theorem layoutXK_and (f : BitVec 4) (x : Reg) (nn : Byte) : (layoutXK f x nn &&& 0xF000).toNat = f.toNat * 4096 := by
  rw [and_mask_family, layoutXK_toNat]
  have := nn.isLt
  omega

theorem layoutXK_and_nn (f : BitVec 4) (x : Reg) (nn : Byte) :
    (layoutXK f x nn &&& 0xF0FF).toNat = f.toNat * 4096 + nn.toNat := by
  rw [and_mask_family_nn, layoutXK_toNat]
  have := nn.isLt
  omega

theorem layoutXYN_and_f (f : BitVec 4) (x y : Reg) (n : BitVec 4) :
    (layoutXYN f x y n &&& 0xF000).toNat = f.toNat * 4096 := by
  rw [and_mask_family, layoutXYN_toNat]
  have := n.isLt
  omega

theorem layoutXYN_and_n (f : BitVec 4) (x y : Reg) (n : BitVec 4) :
    (layoutXYN f x y n &&& 0xF00F).toNat = f.toNat * 4096 + n.toNat := by
  rw [and_mask_family_n, layoutXYN_toNat]
  have := n.isLt
  omega

theorem cls : Statement .cls := by
  unfold Statement
  decide

theorem ret : Statement .ret := by
  unfold Statement
  decide

theorem jp (nnn : Addr12) : Statement (.jp nnn) := BitVec.eq_of_toNat_eq (layoutA_and _ nnn)

theorem call (nnn : Addr12) : Statement (.call nnn) := BitVec.eq_of_toNat_eq (layoutA_and _ nnn)

theorem seImm (x : Reg) (nn : Byte) : Statement (.seImm x nn) := BitVec.eq_of_toNat_eq (layoutXK_and _ x nn)

theorem sneImm (x : Reg) (nn : Byte) : Statement (.sneImm x nn) := BitVec.eq_of_toNat_eq (layoutXK_and _ x nn)

theorem seReg (x y : Reg) : Statement (.seReg x y) := BitVec.eq_of_toNat_eq (layoutXYN_and_f _ x y _)

theorem ldImm (x : Reg) (nn : Byte) : Statement (.ldImm x nn) := BitVec.eq_of_toNat_eq (layoutXK_and _ x nn)

theorem addImm (x : Reg) (nn : Byte) : Statement (.addImm x nn) := BitVec.eq_of_toNat_eq (layoutXK_and _ x nn)

theorem ldReg (x y : Reg) : Statement (.ldReg x y) := BitVec.eq_of_toNat_eq (layoutXYN_and_n _ x y _)

theorem orReg (x y : Reg) : Statement (.orReg x y) := BitVec.eq_of_toNat_eq (layoutXYN_and_n _ x y _)

theorem andReg (x y : Reg) : Statement (.andReg x y) := BitVec.eq_of_toNat_eq (layoutXYN_and_n _ x y _)

theorem xorReg (x y : Reg) : Statement (.xorReg x y) := BitVec.eq_of_toNat_eq (layoutXYN_and_n _ x y _)

theorem addReg (x y : Reg) : Statement (.addReg x y) := BitVec.eq_of_toNat_eq (layoutXYN_and_n _ x y _)

theorem sub (x y : Reg) : Statement (.sub x y) := BitVec.eq_of_toNat_eq (layoutXYN_and_n _ x y _)

theorem shr (x y : Reg) : Statement (.shr x y) := BitVec.eq_of_toNat_eq (layoutXYN_and_n _ x y _)

theorem subn (x y : Reg) : Statement (.subn x y) := BitVec.eq_of_toNat_eq (layoutXYN_and_n _ x y _)

theorem shl (x y : Reg) : Statement (.shl x y) := BitVec.eq_of_toNat_eq (layoutXYN_and_n _ x y _)

theorem sneReg (x y : Reg) : Statement (.sneReg x y) := BitVec.eq_of_toNat_eq (layoutXYN_and_f _ x y _)

theorem ldI (nnn : Addr12) : Statement (.ldI nnn) := BitVec.eq_of_toNat_eq (layoutA_and _ nnn)

theorem jpV0 (nnn : Addr12) : Statement (.jpV0 nnn) := BitVec.eq_of_toNat_eq (layoutA_and _ nnn)

theorem rnd (x : Reg) (nn : Byte) : Statement (.rnd x nn) := BitVec.eq_of_toNat_eq (layoutXK_and _ x nn)

theorem drw (x y : Reg) (n : Nat) : Statement (.drw x y n) := BitVec.eq_of_toNat_eq (layoutXYN_and_f _ x y _)

theorem skp (x : Reg) : Statement (.skp x) := BitVec.eq_of_toNat_eq (layoutXK_and_nn _ x _)

theorem sknp (x : Reg) : Statement (.sknp x) := BitVec.eq_of_toNat_eq (layoutXK_and_nn _ x _)

theorem ldVxDt (x : Reg) : Statement (.ldVxDt x) := BitVec.eq_of_toNat_eq (layoutXK_and_nn _ x _)

theorem ldVxK (x : Reg) : Statement (.ldVxK x) := BitVec.eq_of_toNat_eq (layoutXK_and_nn _ x _)

theorem ldDtVx (x : Reg) : Statement (.ldDtVx x) := BitVec.eq_of_toNat_eq (layoutXK_and_nn _ x _)

theorem ldStVx (x : Reg) : Statement (.ldStVx x) := BitVec.eq_of_toNat_eq (layoutXK_and_nn _ x _)

theorem addIVx (x : Reg) : Statement (.addIVx x) := BitVec.eq_of_toNat_eq (layoutXK_and_nn _ x _)

theorem ldFVx (x : Reg) : Statement (.ldFVx x) := BitVec.eq_of_toNat_eq (layoutXK_and_nn _ x _)

theorem ldBVx (x : Reg) : Statement (.ldBVx x) := BitVec.eq_of_toNat_eq (layoutXK_and_nn _ x _)

theorem ldMemVx (x : Reg) : Statement (.ldMemVx x) := BitVec.eq_of_toNat_eq (layoutXK_and_nn _ x _)

theorem ldVxMem (x : Reg) : Statement (.ldVxMem x) := BitVec.eq_of_toNat_eq (layoutXK_and_nn _ x _)

end Sys2Proof.Laws.EncodeRow
end

