-- ==== Sys2Proof/Laws/Sprites.lean ====
section
/-! SUPPORT. Sprites: a sprite's cells are all different, so drawing toggles each of them once. -/

namespace Sys2Proof.Machine

theorem Display.get_toggle (d : Display) (p q : Cell) :
    Display.get (Display.toggle d p) q = if q = p then !Display.get d q else Display.get d q := by
  obtain ⟨px, py⟩ := p
  obtain ⟨qx, qy⟩ := q
  by_cases hy : qy = py
  · subst hy
    by_cases hx : qx = px
    · subst hx
      simp [Display.get, Display.toggle]
    · have : px.val ≠ qx.val := fun h => hx (Fin.ext h.symm)
      simp [Display.get, Display.toggle, hx, this]
  · have : py.val ≠ qy.val := fun h => hy (Fin.ext h.symm)
    simp [Display.get, Display.toggle, hy, this]

theorem Display.ext_get {d e : Display} (h : ∀ p, Display.get d p = Display.get e p) : d = e := by
  apply Vector.ext
  intro y hy
  apply Vector.ext
  intro x hx
  exact h (⟨x, hx⟩, ⟨y, hy⟩)

theorem Display.get_clear (p : Cell) : Display.get Display.clear p = false := by
  simp [Display.get, Display.clear]

/-- Drawing different cells toggles each of them, and notes whether one was set before. -/
theorem foldl_drawPixel (ps : List Cell) (hn : ps.Nodup) (d : Display) (b : Bool) :
    (∀ p, Display.get (ps.foldl drawPixel (d, b)).1 p = if p ∈ ps then !Display.get d p else Display.get d p) ∧
      ((ps.foldl drawPixel (d, b)).2 = true ↔ b = true ∨ ∃ p ∈ ps, Display.get d p = true) := by
  induction ps generalizing d b with
  | nil => simp
  | cons q ps ih =>
    obtain ⟨hq, hn⟩ := List.nodup_cons.1 hn
    obtain ⟨h1, h2⟩ := ih hn (Display.toggle d q) (b || Display.get d q)
    have keep : ∀ p ∈ ps, Display.get (Display.toggle d q) p = Display.get d p := fun p hp => by
      rw [Display.get_toggle, if_neg (by rintro rfl; exact hq hp)]
    refine ⟨fun p => ?_, ?_⟩
    · rw [List.foldl_cons, drawPixel, h1]
      by_cases hp : p ∈ ps
      · simp [hp, keep p hp]
      · by_cases hpq : p = q
        · subst hpq
          simp [hp, Display.get_toggle]
        · simp [hp, hpq, Display.get_toggle]
    · rw [List.foldl_cons, drawPixel, h2]
      simp only [List.exists_mem_cons_iff, Bool.or_eq_true]
      constructor
      · rintro ((h | h) | ⟨p, hp, h⟩)
        · exact .inl h
        · exact .inr (.inl h)
        · exact .inr (.inr ⟨p, hp, by rwa [keep p hp] at h⟩)
      · rintro (h | h | ⟨p, hp, h⟩)
        · exact .inl (.inl h)
        · exact .inl (.inr h)
        · exact .inr ⟨p, hp, by rwa [keep p hp]⟩

/-- What one draw does to a display whose sprite cells are all different. -/
theorem drawCells_spec (d : Display) (ps : List Cell) (hn : ps.Nodup) :
    (∀ p, Display.get (drawCells d ps).1 p = if p ∈ ps then !Display.get d p else Display.get d p) ∧
      ((drawCells d ps).2 = true ↔ ∃ p ∈ ps, Display.get d p = true) := by
  have := foldl_drawPixel ps hn d false
  simpa [drawCells] using this

theorem spritePixel_iff (b : Byte) (c : Nat) : spritePixel b c = true ↔ b.toNat / 2 ^ (7 - c) % 2 = 1 := by
  unfold spritePixel
  rw [BitVec.getLsbD, Nat.testBit_eq_decide_div_mod_eq]
  simp

theorem mem_rowCells {x0 y0 b : Byte} {r : Nat} {p : Cell} :
    p ∈ rowCells x0 y0 b r ↔ ∃ c, c < 8 ∧ b.toNat / 2 ^ (7 - c) % 2 = 1 ∧
      p.1.val = (x0.toNat + c) % 64 ∧ p.2.val = (y0.toNat + r) % 32 := by
  simp only [rowCells, List.mem_map, List.mem_filter, List.mem_range, spritePixel_iff, wrapCell, Prod.ext_iff,
    Fin.ext_iff, Fin.ofNat]
  constructor
  · rintro ⟨c, ⟨h1, h2⟩, h3, h4⟩
    exact ⟨c, h1, h2, h3.symm, h4.symm⟩
  · rintro ⟨c, h1, h2, h3, h4⟩
    exact ⟨c, ⟨h1, h2⟩, h3.symm, h4.symm⟩

/-- The cells an `n`-row sprite toggles are exactly those under its set pixels (R201, R202). -/
theorem State.mem_spriteCells {s : State} {x0 y0 : Byte} {n : Nat} {p : Cell} :
    p ∈ s.spriteCells x0 y0 n ↔ SpriteCovers s x0 y0 n p := by
  simp only [State.spriteCells, List.mem_flatMap, List.mem_range, mem_rowCells, SpriteCovers]
  constructor
  · rintro ⟨r, h1, c, h2, h3, h4, h5⟩
    exact ⟨r, c, h1, h2, h3, h4, h5⟩
  · rintro ⟨r, c, h1, h2, h3, h4, h5⟩
    exact ⟨r, h1, c, h2, h3, h4, h5⟩

/-- A sprite of at most 32 rows has no cell twice: "no cell is toggled twice by one DRW" (R203). -/
theorem State.nodup_spriteCells (s : State) (x0 y0 : Byte) (n : Nat) (h : n ≤ 32) : (s.spriteCells x0 y0 n).Nodup := by
  unfold State.spriteCells
  rw [List.nodup_flatMap]
  refine ⟨fun r _ => ?_, ?_⟩
  · refine (List.Nodup.filter _ List.nodup_range).map_on fun c hc c' hc' he => ?_
    simp only [List.mem_filter, List.mem_range] at hc hc'
    have := congrArg (fun p : Cell => p.1.val) he
    simp only [wrapCell, Fin.ofNat] at this
    omega
  · refine List.Pairwise.imp_of_mem ?_ List.nodup_range
    intro r r' hr hr' hne
    simp only [List.mem_range] at hr hr'
    intro p hp hp'
    obtain ⟨c, -, -, -, h5⟩ := mem_rowCells.1 hp
    obtain ⟨c', -, -, -, h5'⟩ := mem_rowCells.1 hp'
    omega

end Sys2Proof.Machine
end

