-- ==== Sys2Proof/Tests/Slice0.lean ====
section
/-! SUPPORT. Tests. The expected results are the spec's: words written out bit by bit from R81 and R84, the vectors of
95_test_vectors.md (V<n>, L1.<n>), and, for each statement with hypotheses, a state and operands that meet them. -/

namespace Sys2Proof.Tests

open Sys2Proof.Machine

/-! ### Well-formedness -/

/-- DRW's row count is a 4-bit field (R83): 16 rows are refused, 0 and 15 are not. -/
theorem test_wf_refuses_sixteen_rows :
    (Instr.drw 0 0 16).wf = false ∧ (Instr.drw 0 0 15).wf = true ∧ (Instr.drw 0 0 0).wf = true := by decide

/-! ### Decoding: every constructor, its word written out from the layouts of R81 and the selectors of R84 -/

theorem test_decode_family_0 :
    decodeWord 0b0000000011100000 = .ok .cls ∧ decodeWord 0b0000000011101110 = .ok .ret := by decide

theorem test_decode_addresses :
    decodeWord 0b0001101010111100 = .ok (.jp 0xABC) ∧ decodeWord 0b0010000100100011 = .ok (.call 0x123) ∧
    decodeWord 0b1010111111111110 = .ok (.ldI 0xFFE) ∧ decodeWord 0b1011100000000001 = .ok (.jpV0 0x801) := by decide

theorem test_decode_immediates :
    decodeWord 0b0011000110000010 = .ok (.seImm 1 0x82) ∧ decodeWord 0b0100111100000001 = .ok (.sneImm 15 0x01) ∧
    decodeWord 0b0110100011111110 = .ok (.ldImm 8 0xFE) ∧ decodeWord 0b0111001001111111 = .ok (.addImm 2 0x7F) ∧
    decodeWord 0b1100010110100000 = .ok (.rnd 5 0xA0) := by decide

theorem test_decode_two_registers :
    decodeWord 0b0101000100100000 = .ok (.seReg 1 2) ∧ decodeWord 0b1001100001000000 = .ok (.sneReg 8 4) ∧
    decodeWord 0b1101000100101111 = .ok (.drw 1 2 15) := by decide

theorem test_decode_family_8 :
    decodeWord 0b1000000100100000 = .ok (.ldReg 1 2) ∧ decodeWord 0b1000000100100001 = .ok (.orReg 1 2) ∧
    decodeWord 0b1000000100100010 = .ok (.andReg 1 2) ∧ decodeWord 0b1000000100100011 = .ok (.xorReg 1 2) ∧
    decodeWord 0b1000000100100100 = .ok (.addReg 1 2) ∧ decodeWord 0b1000000100100101 = .ok (.sub 1 2) ∧
    decodeWord 0b1000000100100110 = .ok (.shr 1 2) ∧ decodeWord 0b1000000100100111 = .ok (.subn 1 2) ∧
    decodeWord 0b1000000100101110 = .ok (.shl 1 2) := by decide

theorem test_decode_family_E :
    decodeWord 0b1110101110011110 = .ok (.skp 11) ∧ decodeWord 0b1110110110100001 = .ok (.sknp 13) := by decide

theorem test_decode_family_F :
    decodeWord 0b1111000100000111 = .ok (.ldVxDt 1) ∧ decodeWord 0b1111001000001010 = .ok (.ldVxK 2) ∧
    decodeWord 0b1111001100010101 = .ok (.ldDtVx 3) ∧ decodeWord 0b1111010000011000 = .ok (.ldStVx 4) ∧
    decodeWord 0b1111010100011110 = .ok (.addIVx 5) ∧ decodeWord 0b1111011000101001 = .ok (.ldFVx 6) ∧
    decodeWord 0b1111011100110011 = .ok (.ldBVx 7) ∧ decodeWord 0b1111100001010101 = .ok (.ldMemVx 8) ∧
    decodeWord 0b1111100101100101 = .ok (.ldVxMem 9) := by decide

/-- V6, V8: words that are no instruction (R87), and bytes that are too few. -/
theorem test_decode_rejects :
    decodeWord 0x0123 = .error (.unknown 0x0123) ∧ decodeWord 0x800F = .error (.unknown 0x800F) ∧
    decodeWord 0xE0FF = .error (.unknown 0xE0FF) ∧ decodeWord 0xF0FF = .error (.unknown 0xF0FF) ∧
    decode [0x60] = .error .truncated ∧ decode [] = .error .truncated := by decide

/-- V10, V11, V33: the bits the decoder ignores (R86). -/
theorem test_decode_ignored_bits :
    decodeWord 0x0FF0 = .ok .cls ∧ decodeWord 0x0FFE = .ok .ret ∧ decodeWord 0x5013 = .ok (.seReg 0 1) ∧
    decodeWord 0x901F = .ok (.sneReg 0 1) := by decide

/-- The encoder gives the canonical words of R90. -/
theorem test_encode :
    encode .cls = 0x00E0 ∧ encode .ret = 0x00EE ∧ encode (.drw 15 1 5) = 0xDF15 ∧ encode (.shl 0 1) = 0x801E ∧
    encode (.sknp 5) = 0xE5A1 ∧ encodeBytes (.jp 0x204) = [0x12, 0x04] := by decide

/-! ### One cycle of every instruction -/

/-- The machine right after construction with other settings of the parameters. -/
def withConfig (f : Config → Config) : State := State.constructed (f Params.default)

/-- The result of one `cycle(rnd)` with the word `w` where it is fetched. -/
def cycleOf (s : State) (w : Nat) (rnd : Byte := 0) : CycleResult :=
  match (s.withFetchWord 16 w).cycle rnd with
  | .next r => r
  | .fault _ | .refused _ => s.endCycle .ok

/-- The state after that cycle. -/
def after (s : State) (w : Nat) (rnd : Byte := 0) : State := (cycleOf s w rnd).state

/-- `V0 = a`, `V1 = b`, `V[0xF] = 0x77` (the start of L2.3). -/
def alu (a b : Byte) : State := ((State.reset.setReg 0 a).setReg 1 b).setReg 15 0x77

/-- The keys whose bits are set in `k` are pressed. -/
def keys (k : Word) : State := State.reset.setKeys k

/-- V11, V117. -/
theorem test_cls :
    let t := after ((alu 0 0).setDisp (Display.toggle Display.clear (1, 1))) 0x0FF0
    t.cell (1, 1) = false ∧ t.reg 15 = 0x77 ∧ t.pc = 0x202 := by decide

/-- V22: the slot keeps its contents. -/
theorem test_ret :
    let t := after { State.reset with pc := 0x300, sp := 1, stack := State.reset.stack.set 0 0x240 } 0x00EE
    t.sp = 0 ∧ t.pc = 0x242 ∧ t.stack[0] = 0x240 := by decide

/-- V23. -/
theorem test_ret_underflow :
    (cycleOf State.reset 0x00EE).outcome = .fatal (.stackUnderflow 0x200) ∧
    (after State.reset 0x00EE).halt = some (.stackUnderflow 0x200) ∧ (after State.reset 0x00EE).pc = 0x200 := by decide

/-- V20. -/
theorem test_jp : (after State.reset 0x1ABC).pc = 0xABC := by decide

/-- V21. -/
theorem test_call :
    let t := after (State.reset.setPc 0x240) 0x2ABC
    t.stack[0] = 0x240 ∧ t.sp = 1 ∧ t.pc = 0xABC := by decide

/-- V24. -/
theorem test_call_overflow :
    let t := after { State.reset with sp := 16 } 0x2300
    t.halt = some (.stackOverflow 0x200) ∧ t.sp = 16 ∧ t.pc = 0x200 := by decide

/-- V25, V26. -/
theorem test_se_imm : (after (alu 0x42 0) 0x3042).pc = 0x204 ∧ (after (alu 0 0) 0x3042).pc = 0x202 := by decide

/-- V27, V28. -/
theorem test_sne_imm : (after (alu 0x42 0) 0x4042).pc = 0x202 ∧ (after (alu 0 0) 0x4042).pc = 0x204 := by decide

/-- V29, V30. -/
theorem test_se_reg : (after (alu 0 0) 0x5010).pc = 0x204 ∧ (after (alu 1 0) 0x5010).pc = 0x202 := by decide

/-- V31, V32. -/
theorem test_se_reg_handler_only :
    let s := withConfig fun c => { c with seRegMode := .handlerOnly }
    (after s 0x5010).pc = 0x202 ∧ (after (s.setReg 0 1) 0x5010).pc = 0x200 := by decide

/-- V34, V35. -/
theorem test_sne_reg : (after (alu 0 0) 0x9010).pc = 0x202 ∧ (after (alu 1 0) 0x9010).pc = 0x204 := by decide

/-- V36, V37: no reduction to 12 bits. -/
theorem test_jp_v0 : (after (alu 0xFF 0) 0xB300).pc = 0x3FF ∧ (after (alu 0xFF 0) 0xBFFF).pc = 0x10FE := by decide

/-- L1.1, V13. -/
theorem test_ld_imm :
    (after (alu 0 0) 0x6042).reg 0 = 0x42 ∧ (after (alu 0 0) 0x6042).reg 15 = 0x77 ∧
    (after (alu 0 0) 0x6001 0xFF).reg 0 = 1 := by decide

/-- V67, V68: no carry flag. -/
theorem test_add_imm :
    (after (alu 1 0) 0x70FF).reg 0 = 0 ∧ (after (alu 1 0) 0x70FF).reg 15 = 0x77 ∧
    (after (alu 0xFF 0) 0x7001).reg 0 = 0 := by decide

/-- V40. -/
theorem test_ld_reg : (after (alu 0x12 0x34) 0x8010).reg 0 = 0x34 ∧ (after (alu 0x12 0x34) 0x8010).reg 15 = 0x77 := by
  decide

/-- V41. -/
theorem test_or : (after (alu 0xF0 0x0F) 0x8011).reg 0 = 0xFF ∧ (after (alu 0xF0 0x0F) 0x8011).reg 15 = 0x77 := by decide

/-- V42. -/
theorem test_and : (after (alu 0xF0 0x3C) 0x8012).reg 0 = 0x30 ∧ (after (alu 0xF0 0x3C) 0x8012).reg 15 = 0x77 := by decide

/-- V43. -/
theorem test_xor : (after (alu 0xFF 0x0F) 0x8013).reg 0 = 0xF0 ∧ (after (alu 0xFF 0x0F) 0x8013).reg 15 = 0x77 := by decide

/-- V45, V48. -/
theorem test_add_reg :
    (after (alu 0xFF 0x01) 0x8014).reg 0 = 0 ∧ (after (alu 0xFF 0x01) 0x8014).reg 15 = 1 ∧
    (after (alu 0x7F 0x80) 0x8014).reg 0 = 0xFF ∧ (after (alu 0x7F 0x80) 0x8014).reg 15 = 0 := by decide

/-- V63, in both settings of `FLAG_ORDER`, and V66: the old flag register is the addend. -/
theorem test_add_reg_flag_register :
    let s := withConfig fun c => { c with flagOrder := .resultLast }
    (after ((alu 0 1).setReg 15 0xFF) 0x8F14).reg 15 = 1 ∧
    (after ((s.setReg 1 1).setReg 15 0xFF) 0x8F14).reg 15 = 0 ∧
    (after ((alu 1 0).setReg 15 0xFF) 0x80F4).reg 0 = 0 ∧ (after ((alu 1 0).setReg 15 0xFF) 0x80F4).reg 15 = 1 := by decide

/-- V49, V50. -/
theorem test_sub :
    (after (alu 0 1) 0x8015).reg 0 = 0xFF ∧ (after (alu 0 1) 0x8015).reg 15 = 0 ∧
    (after (alu 0xFF 0xFF) 0x8015).reg 0 = 0 ∧ (after (alu 0xFF 0xFF) 0x8015).reg 15 = 1 := by decide

/-- V54, V55: the source is `V[y]`. -/
theorem test_shr :
    (after (alu 0 0xFF) 0x8016).reg 0 = 0x7F ∧ (after (alu 0 0xFF) 0x8016).reg 15 = 1 ∧
    (after (alu 0xAA 2) 0x8016).reg 0 = 1 ∧ (after (alu 0xAA 2) 0x8016).reg 15 = 0 := by decide

/-- V57, V58. -/
theorem test_subn :
    (after (alu 1 0) 0x8017).reg 0 = 0xFF ∧ (after (alu 1 0) 0x8017).reg 15 = 0 ∧
    (after (alu 3 5) 0x8017).reg 0 = 2 ∧ (after (alu 3 5) 0x8017).reg 15 = 1 := by decide

/-- V61, V62. -/
theorem test_shl :
    (after (alu 0 0x7F) 0x801E).reg 0 = 0xFE ∧ (after (alu 0 0x7F) 0x801E).reg 15 = 0 ∧
    (after (alu 0xAA 0xFF) 0x801E).reg 0 = 0xFE ∧ (after (alu 0xAA 0xFF) 0x801E).reg 15 = 1 := by decide

/-- V70, V71, V72. -/
theorem test_rnd :
    (after State.reset 0xC30F 0xFF).reg 3 = 0x0F ∧ (after State.reset 0xC30F 0xA5).reg 3 = 0x05 ∧
    (after State.reset 0xC300 0xA5).reg 3 = 0 := by decide

/-- V81. -/
theorem test_ld_i : (after State.reset 0xAFFF).i = 0xFFF := by decide

/-- V83, V84. -/
theorem test_add_i :
    (after ((State.reset.setIndex 0xFFF).setReg 2 1) 0xF21E).i = 0 ∧
    (after ((State.reset.setIndex 0xF80).setReg 2 0xFF) 0xF21E).i = 0x07F := by decide

/-- V85, V86. -/
theorem test_ld_f :
    (after (alu 0 7) 0xF129).i = 2 ∧ (after (alu 0 0xFF) 0xF129).i = 0 := by decide

/-- V88. -/
theorem test_ld_f_glyph :
    (after ((withConfig fun c => { c with fontAddrMode := .glyph }).setReg 1 0x1A) 0xF129).i = 0x032 := by decide

/-- V93: the last three bytes of memory. -/
theorem test_ld_b :
    let t := after ((alu 123 0).setIndex 0xFFC) 0xF033
    t.peek 0xFFC = 1 ∧ t.peek 0xFFD = 2 ∧ t.peek 0xFFE = 3 ∧ t.i = 0xFFC := by decide

/-- V94. -/
theorem test_ld_b_bounds :
    let t := after ((alu 1 0).setIndex 0xFFD) 0xF033
    t.halt = some (.memoryBounds 0xFFF) ∧ t.peek 0xFFD = 0 ∧ t.pc = 0x200 := by decide

/-- V95, V99. -/
theorem test_ld_mem :
    let t := after ((alu 1 2).setIndex 0x300) 0xF155
    (t.peek 0x300 = 0 ∧ t.peek 0x301 = 1 ∧ t.peek 0x302 = 2 ∧ t.i = 0x302) ∧
    (after (State.reset.setIndex 0xFEF) 0xFF55).halt = some (.memoryBounds 0xFFF) := by decide

/-- V96. -/
theorem test_ld_mem_standard :
    let s := withConfig fun c => { c with regRangeMode := .standard }
    let t := after (((s.setReg 0 1).setReg 1 2).setIndex 0x300) 0xF155
    t.peek 0x300 = 1 ∧ t.peek 0x301 = 2 ∧ t.peek 0x302 = 0 ∧ t.i = 0x302 := by decide

/-- V101. -/
theorem test_ld_vx_mem :
    let t := after ((State.reset.pokes 0x300 [2, 5, 4, 0]).setIndex 0x300) 0xF265
    t.reg 0 = 5 ∧ t.reg 1 = 4 ∧ t.reg 2 = 0 ∧ t.i = 0x303 := by decide

/-- V102. -/
theorem test_ld_vx_mem_standard :
    let s := withConfig fun c => { c with regRangeMode := .standard }
    let t := after ((s.pokes 0x300 [2, 5, 4, 0]).setIndex 0x300) 0xF265
    t.reg 0 = 2 ∧ t.reg 1 = 5 ∧ t.reg 2 = 4 ∧ t.i = 0x303 := by decide

/-- V112: a collision, coordinates of more than one display, and a cell beside the sprite. -/
theorem test_drw :
    let s := ((alu 200 40).poke 0x300 0x80).setIndex 0x300
    let t := after (s.setDisp (Display.toggle (Display.toggle Display.clear (8, 8)) (9, 8))) 0xD011
    t.cell (8, 8) = false ∧ t.cell (9, 8) = true ∧ t.reg 15 = 1 := by decide

/-- V116: the coordinate is the old `V[0xF]`; glyph 0, corners and the hole in it. -/
theorem test_drw_flag_register :
    let t := after ((State.reset.setReg 15 3).setReg 1 2) 0xDF15
    t.cell (3, 2) = true ∧ t.cell (6, 6) = true ∧ t.cell (4, 4) = false ∧ t.cell (7, 2) = false ∧ t.reg 15 = 0 := by decide

/-- V120, V121, and V125: the number is reduced under `mask`. -/
theorem test_skp :
    (after ((keys 0x0020).setReg 0 5) 0xE09E).pc = 0x204 ∧ (after ((keys 0x0010).setReg 0 5) 0xE09E).pc = 0x202 ∧
    (after (((withConfig fun c => { c with keyIndexPolicy := .mask }).setKeys 1).setReg 0 16) 0xE09E).pc = 0x204 := by
  decide

/-- V124. -/
theorem test_skp_range : (after ((keys 1).setReg 0 16) 0xE09E).halt = some (.keyIndexRange 16) := by decide

/-- V122, V123. -/
theorem test_sknp :
    (after ((keys 0x0020).setReg 0 5) 0xE0A1).pc = 0x202 ∧ (after ((keys 0x0010).setReg 0 5) 0xE0A1).pc = 0x204 := by
  decide

/-- V127. -/
theorem test_ld_k : (after (keys 0x0204) 0xF30A).reg 3 = 9 ∧ (after (keys 0x0204) 0xF30A).pc = 0x202 := by decide

/-- V126, V128: the timers run while the instruction waits. -/
theorem test_ld_k_waits :
    let t := after (State.reset.setDt 3) 0xF30A
    t.pc = 0x200 ∧ t.reg 3 = 0 ∧ t.dt = 2 := by decide

/-- V129. -/
theorem test_ld_vx_dt : (after (State.reset.setDt 5) 0xF307).reg 3 = 5 ∧ (after (State.reset.setDt 5) 0xF307).dt = 4 := by
  decide

/-- V131, V133. -/
theorem test_ld_dt :
    (after State.reset 0xF315).dt = 0 ∧ (after (State.reset.setReg 3 0xFF) 0xF315).dt = 0xFE := by decide

/-- V134, V135. -/
theorem test_ld_st :
    (after (State.reset.setReg 3 1) 0xF318).st = 0 ∧ (cycleOf (State.reset.setReg 3 1) 0xF318).tone = true ∧
    (after (State.reset.setReg 3 0xFF) 0xF318).st = 0xFE ∧
    (cycleOf (State.reset.setReg 3 0xFF) 0xF318).tone = false := by decide

/-! ### The cycle and the host's transactions -/

/-- V9: an unknown word is skipped and the timers run. V7: it stalls under `stall`. -/
theorem test_unknown_word :
    let r := cycleOf ((State.reset.setDt 5).setSt 3) 0xF0FF
    (r.outcome = .unknownInstruction 0xF0FF ∧ r.state.pc = 0x202 ∧ r.state.dt = 4 ∧ r.state.st = 2 ∧ r.tone = false) ∧
    (after (withConfig fun c => { c with unknownPolicy := .stall }) 0x0123).pc = 0x200 := by decide

/-- V2, V3: the fetch faults at the first byte that is outside memory. -/
theorem test_fetch_bounds :
    (State.reset.setPc 0xFFE).fetch = .error (.memoryBounds 0xFFF) ∧
    (State.reset.setPc 0x10FE).fetch = .error (.memoryBounds 0x10FE) ∧
    (State.reset.setPc 0xFFD).fetch = .ok 0x0000 := by decide

/-- V4: an odd `PC` fetches, and the word is big-endian. -/
theorem test_fetch_odd : ((State.reset.setPc 0x201).pokes 0x201 [0x60, 0x07]).fetch = .ok 0x6007 := by decide

/-- V12: a halted cycle changes nothing. -/
theorem test_halted :
    let s := (State.reset.setDt 5).raiseFatal (.stackUnderflow 0x200)
    step s = .next s := rfl

/-- L1.8. -/
theorem test_tone :
    (cycleOf (State.reset.setSt 1) 0x1200).tone = true ∧ (after (State.reset.setSt 1) 0x1200).st = 0 ∧
    (cycleOf (State.reset.setSt 2) 0x1200).tone = false ∧ (cycleOf State.reset 0x1200).tone = false := by decide

/-- L1.9. -/
theorem test_reset_state :
    State.reset.peek 0x000 = 0xF0 ∧ State.reset.peek 0x04F = 0x80 ∧ State.reset.peek 0x050 = 0 ∧
    State.reset.pc = 0x200 ∧ State.reset.reg 15 = 0 := by decide

/-- V140, V141. -/
theorem test_reset_transaction :
    let s := ((((keys 8).setReg 0 7).setDt 9).pokes 0x000 [0x00]).pokes 0x300 [0xAA]
    let t := (s.raiseFatal (.stackUnderflow 0x200)).resetTx
    t.reg 0 = 0 ∧ t.dt = 0 ∧ t.halt = none ∧ t.peek 0x300 = 0xAA ∧ t.peek 0x000 = 0xF0 ∧ t.key[3] = true := by decide

/-- A load that fits and one that does not, in a memory with room for three bytes (R60). -/
theorem test_load :
    let s := withConfig fun c => { c with memSize := 0x203 }
    ((s.load [1, 2, 3]).2 = .ok ∧ (s.load [1, 2, 3]).1.peek 0x202 = 3) ∧
    (s.load [1, 2, 3, 4]).2 = .loadError ∧ (s.load [1, 2, 3, 4]).1 = s := by decide

/-- Writing back what an unlisted address reads as leaves nothing listed, so equal memories are equal data. -/
theorem test_memory_canonical :
    ((State.reset.poke 0x300 5).poke 0x300 0).mem = [] ∧ (State.reset.poke 0x000 0xF0).mem = [] ∧
    ((State.reset.poke 0x301 1).poke 0x300 2).mem = [(0x300, 2), (0x301, 1)] := by decide

/-- `withFetchWord` lets the next step run the word even where the state is halted or `PC` is outside memory. -/
theorem test_with_fetch_word :
    let s := (State.reset.setPc 0xFFF).raiseFatal (.memoryBounds 0xFFF)
    (s.withFetchWord 16 0x6042).current = some (.ldImm 0 0x42) ∧ decodeTableWord 16 0x6042 = some (.ldImm 0 0x42) ∧
    decodeTableWord 16 0x0123 = none := by decide

/-! ### Witnesses: a state and operands that meet the hypotheses of each statement, clause by clause -/

/-- A state with the word `w` where it is fetched. -/
def placed (s : State) (w : Nat) : State := s.withFetchWord 16 w

/-- The state the instruction leaves. -/
def executed (i : Instr) (s : State) : State :=
  match exec i s with
  | .next t => t
  | .fault _ | .refused _ => s

/-- A state at the edges of the second invariant: a CALL at the last address it can be fetched from, `I` at its largest,
one stack entry in use. -/
def edge : State :=
  placed { State.reset with pc := 0xFFD, i := 0xFFF, sp := 1, stack := State.reset.stack.set 0 0xFFD } 0x2ABC

/-- A state with one stack entry in use, and a full stack. -/
def inCall : State := { State.reset with sp := 1, stack := State.reset.stack.set 0 0x204 }
def fullStack : State := { State.reset with sp := 16 }

theorem witness_DecodeEncodeRoundTrip : (Instr.drw 15 15 15).wf = true := by decide

theorem witness_WordsSelectTheirTableRow :
    (0x8124 : Word) &&& Op.addReg.mask = Op.addReg.value ∧ (0xF165 : Word) &&& Op.ldVxMem.mask = Op.ldVxMem.value := by
  decide

theorem witness_DecodedOperandsAreTheWordFields : decodeWord 0xDABC = .ok (.drw 10 11 12) := by decide

theorem witness_OnlyTheListedBitsAreIgnored :
    ((0x0120 : Word).toNat / 4096 = 0 ∧ (0x0FF0 : Word).toNat / 4096 = 0 ∧
      (0x0120 : Word).toNat % 16 = (0x0FF0 : Word).toNat % 16) ∧
    ((0x9120 : Word).toNat / 4096 = 9 ∧ (0x9120 : Word).toNat / 16 = (0x912F : Word).toNat / 16) ∧
    ((0x8124 : Word).toNat / 4096 ∉ [0, 5, 9] ∧ decodeWord 0x8124 = .ok (.addReg 1 2)) := by decide

/-- The last `PC` that can be fetched from, and the two kinds that cannot. -/
theorem witness_FetchIsBigEndianAndBounded :
    (State.reset.setPc 0xFFD).pc.toNat + 1 < State.reset.cfg.memSize ∧
    State.reset.cfg.memSize ≤ (State.reset.setPc 0xFFF).pc.toNat ∧
    ((State.reset.setPc 0xFFE).pc.toNat < State.reset.cfg.memSize ∧
      State.reset.cfg.memSize ≤ (State.reset.setPc 0xFFE).pc.toNat + 1) := by decide

theorem witness_StepRunsTheDecodedInstruction :
    (∃ (s : State) (w : Word) (i : Instr) (t : State), s.halt = none ∧ s.fetch = .ok w ∧ decodeWord w = .ok i ∧ exec i s = .next t ∧ t.halt = none) ∧
    ∃ (s : State) (w : Word) (i : Instr) (t : State), s.halt = none ∧ s.fetch = .ok w ∧ decodeWord w = .ok i ∧ exec i s = .next t ∧ t.halt ≠ none :=
  ⟨⟨placed State.reset 0x6042, 0x6042, .ldImm 0 0x42, _, rfl, by decide, by decide, rfl, by decide⟩,
    placed State.reset 0x00EE, 0x00EE, .ret, _, rfl, by decide, by decide, rfl, by decide⟩

theorem witness_CycleFollowsItsStages :
    (∃ (s : State) (f : Fatal), s.halt = some f) ∧ (∃ (s : State) (f : Fatal), s.halt = none ∧ s.fetch = .error f) ∧
    (∃ (s : State) (w : Word) (e : DecodeError), s.halt = none ∧ s.fetch = .ok w ∧ decodeWord w = .error e ∧ s.cfg.unknownPolicy = .advance) ∧
    (∃ (s : State) (w : Word) (e : DecodeError), s.halt = none ∧ s.fetch = .ok w ∧ decodeWord w = .error e ∧ s.cfg.unknownPolicy = .stall) :=
  ⟨⟨State.reset.raiseFatal (.memoryBounds 0xFFF), _, rfl⟩, ⟨State.reset.setPc 0xFFE, .memoryBounds 0xFFF, rfl, by decide⟩,
    ⟨placed State.reset 0x0123, 0x0123, .unknown 0x0123, rfl, by decide, by decide, rfl⟩,
    placed (withConfig fun c => { c with unknownPolicy := .stall }) 0xF0FF, 0xF0FF, .unknown 0xF0FF, rfl, by decide,
      by decide, rfl⟩

theorem witness_UnknownWordIsReportedAndSkipped :
    (placed State.reset 0x800F).halt = none ∧ (placed State.reset 0x800F).fetch = .ok 0x800F ∧
    decodeWord 0x800F = .error (.unknown 0x800F) := by decide

theorem witness_HaltedBlockStaysHaltedUntilReset :
    (State.reset.raiseFatal (.keyIndexRange 16)).halt = some (.keyIndexRange 16) := rfl

theorem witness_FatalOutcomesArePrecise :
    ∃ (s : State) (r : CycleResult) (f : Fatal), s.halt = none ∧ runCycle s = .next r ∧ r.outcome = .fatal f :=
  ⟨State.reset.setPc 0xFFE, _, .memoryBounds 0xFFF, rfl, rfl, by decide⟩

theorem witness_RandomByteReachesOnlyRnd : ∀ x nn, (placed State.reset 0x6042).current ≠ some (.rnd x nn) := by
  rw [show (placed State.reset 0x6042).current = some (.ldImm 0 0x42) by decide]
  intro x nn h
  cases h

/-- A cycle of LD DT, Vx, one of LD ST, Vx, and one of neither. -/
theorem witness_TimersCountOncePerSafeCycle :
    (∃ s r x, runCycle s = .next r ∧ r.outcome.isFatal = false ∧ s.current = some (.ldDtVx x)) ∧
    (∃ s r x, runCycle s = .next r ∧ r.outcome.isFatal = false ∧ s.current = some (.ldStVx x)) ∧
    ∃ s r, runCycle s = .next r ∧ r.outcome.isFatal = false ∧ s.current = some .cls :=
  ⟨⟨placed State.reset 0xF315, _, 3, rfl, by decide, by decide⟩, ⟨placed State.reset 0xF318, _, 3, rfl, by decide, by decide⟩,
    placed State.reset 0x00E0, _, rfl, by decide, by decide⟩

/-- The result of one cycle, and the states of a run in which the host changes nothing. -/
def resultOf (s : State) : CycleResult :=
  match runCycle s with
  | .next r => r
  | .fault _ | .refused _ => s.endCycle .ok

def runFrom (s : State) : Nat → State
  | 0 => s
  | n + 1 => (resultOf (runFrom s n)).state

/-- L1.8: the run of the jump to itself from `ST` = 2, three cycles, and the same for the delay timer. -/
theorem witness_ToneSoundsInExactlyOneCycle :
    SafeTraceWithout .ldStVx (runFrom (placed (State.reset.setSt 2) 0x1200))
      (fun n => resultOf (runFrom (placed (State.reset.setSt 2) 0x1200) n)) 3 := by
  refine ⟨fun j hj => ⟨?_, _, _, rfl⟩, fun j hj => ?_⟩
  · interval_cases j <;> rfl
  · have h : (resultOf (runFrom (placed (State.reset.setSt 2) 0x1200) j)).outcome.isFatal = false ∧
        (runFrom (placed (State.reset.setSt 2) 0x1200) j).current = some (.jp 0x200) := by
      interval_cases j <;> decide
    refine ⟨h.1, fun i hi => ?_⟩
    rw [h.2] at hi
    cases hi
    decide

theorem witness_DelayTimerReachesZeroAndStays :
    SafeTraceWithout .ldDtVx (runFrom (placed (State.reset.setDt 2) 0x1200))
      (fun n => resultOf (runFrom (placed (State.reset.setDt 2) 0x1200) n)) 3 := by
  refine ⟨fun j hj => ⟨?_, _, _, rfl⟩, fun j hj => ?_⟩
  · interval_cases j <;> rfl
  · have h : (resultOf (runFrom (placed (State.reset.setDt 2) 0x1200) j)).outcome.isFatal = false ∧
        (runFrom (placed (State.reset.setDt 2) 0x1200) j).current = some (.jp 0x200) := by
      interval_cases j <;> decide
    refine ⟨h.1, fun i hi => ?_⟩
    rw [h.2] at hi
    cases hi
    decide

/-- A jump to itself with the timers running, and one with both at 0. -/
theorem witness_JumpToItselfIsASteadyState :
    ((placed (State.reset.setDt 5) 0x1200).halt = none ∧
      (placed (State.reset.setDt 5) 0x1200).current = some (.jp 0x200) ∧
      (0x200 : Addr12).toNat = (placed (State.reset.setDt 5) 0x1200).pc.toNat) ∧
    (placed State.reset 0x1200).current = some (.jp 0x200) ∧ (placed State.reset 0x1200).dt = 0 ∧
    (placed State.reset 0x1200).st = 0 := by decide

theorem witness_OnlyListedInstructionsRaiseFatal :
    ∃ (s t : State) (f : Fatal), s.halt = none ∧ exec .ret s = .next t ∧ t.halt = some f :=
  ⟨State.reset, _, _, rfl, rfl, rfl⟩

theorem witness_EachPartHasOnlyItsWriters :
    ∃ t, exec .cls State.reset = .next t ∧ Part.mem ≠ .pc ∧ Part.mem ≠ .halt ∧ Instr.op .cls ∉ Part.mem.writers :=
  ⟨_, rfl, by decide, by decide, by decide⟩

theorem witness_RegistersChangeOnlyAsTabulated : ∃ t, exec (.addReg 0 1) State.reset = .next t := ⟨_, rfl⟩

/-- Every row of R26 in one state, in its standard mode. -/
theorem witness_ProgramCounterChangesAsTabulated :
    inCall.halt = none ∧ inCall.cfg.seRegMode = .standard ∧
    ∀ i ∈ [Instr.ret, .jp 0, .call 0, .seImm 0 0, .sneImm 0 0, .seReg 0 1, .sneReg 0 1, .skp 0, .sknp 0, .jpV0 0, .ldVxK 0,
      .ldBVx 0], (exec i inCall = .next (executed i inCall) ∧ (executed i inCall).halt = none) := by
  refine ⟨rfl, rfl, fun i hi => ?_⟩
  fin_cases hi <;> exact ⟨rfl, by decide⟩

/-- A result register that is not the flag register, and the flag register in both settings of `FLAG_ORDER`. -/
theorem witness_WritesResultAndFlag :
    (0 : Reg) ≠ flagReg ∧ State.reset.cfg.flagOrder = .flagLast ∧
    (withConfig fun c => { c with flagOrder := .resultLast }).cfg.flagOrder = .resultLast := by decide

theorem witness_RandomByteIsMasked :
    (State.reset.setRndIn (some 0xA5)).rndIn = some 0xA5 ∧ State.reset.rndIn = none := by decide

/-- An empty stack, and the first and the last entry. -/
theorem witness_ReturnPopsAndAddsTwo :
    State.reset.sp.val = 0 ∧ inCall.sp.val = (0 : Fin 16).val + 1 ∧ fullStack.sp.val = (15 : Fin 16).val + 1 := by decide

/-- A full stack, and the first and the last free slot. -/
theorem witness_CallPushesItsOwnAddress :
    fullStack.sp.val = 16 ∧ State.reset.sp.val = (0 : Fin 16).val ∧
    ({ State.reset with sp := 15 } : State).sp.val = (15 : Fin 16).val := by decide

/-- The condition of each skip holds in one state and fails in another. -/
theorem witness_SkipsCompareRegisters :
    (alu 0x42 0).reg 0 = 0x42 ∧ State.reset.reg 0 ≠ 0x42 ∧ (alu 1 1).reg 0 = (alu 1 1).reg 1 ∧
    (alu 1 0).reg 0 ≠ (alu 1 0).reg 1 := by decide

theorem witness_SkipIfRegistersEqualInBothModes :
    let s := withConfig fun c => { c with seRegMode := .handlerOnly }
    (State.reset.cfg.seRegMode = .standard ∧ State.reset.reg 0 = State.reset.reg 1) ∧ (alu 1 0).reg 0 ≠ (alu 1 0).reg 1 ∧
    (s.cfg.seRegMode = .handlerOnly ∧ s.reg 0 = s.reg 1) ∧ (s.setReg 0 1).reg 0 ≠ (s.setReg 0 1).reg 1 := by decide

/-- The deepest sequence of calls there is room for, and a full stack. -/
theorem witness_CallsAndReturnsRoundTrip :
    State.reset.sp.val + (List.replicate 15 (0x204 : Addr12) ++ [0x240]).length ≤ 16 ∧ [(0x240 : Addr12)] ≠ [] ∧
    State.reset.sp.val + ([] ++ List.replicate 16 (0x204 : Addr12)).length ≤ 16 ∧ fullStack.sp.val = 16 := by decide

theorem witness_FontAddressInBothModes :
    State.reset.cfg.fontAddrMode = .mod5 ∧
    (withConfig fun c => { c with fontAddrMode := .glyph }).cfg.fontAddrMode = .glyph := by decide

/-- The highest `I` that LD B can store at, and the next one. -/
theorem witness_DecimalDigitsAreStored :
    (State.reset.setIndex 0xFFC).i.toNat + 2 < State.reset.cfg.memSize ∧
    State.reset.cfg.memSize ≤ (State.reset.setIndex 0xFFD).i.toNat + 2 := by decide

/-- The highest `I` that 16 registers can be stored at and loaded from, and the next one, in both settings of
`REGRANGE_MODE` (V98, V99, V100). -/
theorem witness_RegistersAreStoredAndLoaded :
    let s := withConfig fun c => { c with regRangeMode := .standard }
    (State.reset.cfg.regRangeMode = .preincrement ∧
      (State.reset.setIndex 0xFEE).rangeBase + (15 : Reg).val < State.reset.cfg.memSize ∧
      State.reset.cfg.memSize ≤ (State.reset.setIndex 0xFEF).rangeBase + (15 : Reg).val) ∧
    s.cfg.regRangeMode = .standard ∧ (s.setIndex 0xFEF).rangeBase + (15 : Reg).val < s.cfg.memSize ∧
    s.cfg.memSize ≤ (s.setIndex 0xFF0).rangeBase + (15 : Reg).val := by decide

theorem witness_StoreThenLoadGivesRegistersBack :
    ∃ s t u : State, s.halt = none ∧ exec (.ldMemVx 1) s = .next t ∧ t.halt = none ∧ u.mem = t.mem ∧ u.cfg = t.cfg ∧ u.i = s.i ∧
      u.halt = none :=
  ⟨(alu 1 2).setIndex 0x300, _, (executed (.ldMemVx 1) ((alu 1 2).setIndex 0x300)).setIndex 0x300, rfl, rfl, by decide, rfl,
    rfl, rfl, by decide⟩

theorem witness_StoredBytesAreFetchedByTheNextCycle :
    let s := placed (State.reset.setIndex 0x202) 0xF333
    let s' := placed (State.reset.setIndex 0x201) 0xF155
    (s.halt = none ∧ s.pc.toNat + 2 < 65536 ∧ s.current = some (.ldBVx 3) ∧ s.i.toNat = s.pc.toNat + 2 ∧
      s.i.toNat + 2 < s.cfg.memSize) ∧
    s'.halt = none ∧ s'.current = some (.ldMemVx 1) ∧ s'.rangeBase = s'.pc.toNat + 2 ∧ s'.rangeBase + 1 < s'.cfg.memSize := by
  decide

/-- No row from an `I` outside memory, rows up to the last byte, one row too many (V113, V114, V115); a cell under the
sprite's set pixel that is set, one that is clear, and a cell that is not under it. -/
theorem witness_DrawTogglesTheSpriteCells :
    ((Instr.drw 0 1 15).wf = true ∧ (State.reset.setIndex 0xFFD).i.toNat + 2 ≤ State.reset.cfg.memSize ∧
      State.reset.cfg.memSize < (State.reset.setIndex 0xFFD).i.toNat + 3) ∧
    SpriteCovers State.reset 0 0 1 (3, 0) ∧ ¬ SpriteCovers State.reset 0 0 1 (4, 0) ∧ State.reset.cell (3, 0) = false ∧
    (State.reset.setDisp (Display.toggle Display.clear (3, 0))).cell (3, 0) = true := by
  refine ⟨by decide, ⟨0, 3, by decide, by decide, by decide, by decide, by decide⟩, ?_, by decide, by decide⟩
  rw [← State.mem_spriteCells]
  decide

/-- Two draws of glyph 0 (R204). -/
theorem witness_DrawingTwiceRestoresTheDisplay :
    ∃ s t u : State, (0 : Reg) ≠ flagReg ∧ (1 : Reg) ≠ flagReg ∧ s.halt = none ∧ exec (.drw 0 1 5) s = .next t ∧ t.halt = none ∧
      u.disp = t.disp ∧ u.reg 0 = s.reg 0 ∧ u.reg 1 = s.reg 1 ∧ u.i = s.i ∧ u.cfg = s.cfg ∧ u.halt = none ∧
      (∀ r, r < 5 → u.peek (s.i.toNat + r) = s.peek (s.i.toNat + r)) ∧
      ∀ p, SpriteCovers s (s.reg 0) (s.reg 1) 5 p → s.cell p = false :=
  ⟨State.reset, _, executed (.drw 0 1 5) State.reset, by decide, by decide, rfl, rfl, by decide, rfl, by decide, by decide,
    rfl, rfl, by decide, fun _ _ => rfl, fun p _ => Display.get_clear p⟩

theorem witness_DrawingAtTheRightEdgeWraps :
    let s := ((State.reset.poke 0x300 0xC0).setIndex 0x300).setReg 0 63
    s.i.toNat < s.cfg.memSize ∧ s.reg 0 = 63 ∧ 0xC0 ≤ (s.peek s.i.toNat).toNat ∧ (∀ p, s.cell p = false) ∧
    s.peek s.i.toNat = 0xC0 :=
  ⟨by decide, by decide, by decide, fun p => Display.get_clear p, by decide⟩

/-- The lowest and the highest key number, a number that is reduced, and the lowest one out of range. -/
theorem witness_KeySkipsTestTheNumberedKey :
    let s := (withConfig fun c => { c with keyIndexPolicy := .mask }).setReg 0 16
    (State.reset.reg 0).toNat = (0 : Fin 16).val ∧ ((alu 15 0).reg 0).toNat = (15 : Fin 16).val ∧
    (s.cfg.keyIndexPolicy = .mask ∧ (s.reg 0).toNat % 16 = (0 : Fin 16).val) ∧
    16 ≤ ((alu 16 0).reg 0).toNat ∧ (alu 16 0).cfg.keyIndexPolicy = .fault := by decide

theorem witness_WaitForKeyTakesTheHighest :
    ((keys 0x0204).key[(9 : Fin 16)] = true ∧ ∀ j : Fin 16, 9 < j → (keys 0x0204).key[j] = false) ∧
    ∀ k : Fin 16, State.reset.key[k] = false := by decide

theorem witness_ResetTransactionValues :
    ∃ s t : State, s.halt ≠ none ∧ step s = .next t :=
  ⟨State.reset.raiseFatal (.stackUnderflow 0x200), _, by decide, rfl⟩

theorem witness_ConstructionValues : ∃ c : Config, State.reset = State.constructed c := ⟨_, rfl⟩

theorem witness_CycleSuppliesTheRandomByte :
    (placed State.reset 0xC30F).halt = none ∧ (placed State.reset 0xC30F).current = some (.rnd 3 0x0F) := by decide

/-- The longest program that fits and the next length (L1.10). -/
theorem witness_LoadCopiesOrWritesNothing :
    (List.replicate 3583 (0 : Byte)).length + 0x200 ≤ State.reset.cfg.memSize ∧
    State.reset.cfg.memSize < (List.replicate 3584 (0 : Byte)).length + 0x200 := by
  simp only [List.length_replicate]
  decide

theorem witness_StepKeepsMemoryCanonical : ∃ t, edge.MemOk ∧ step edge = .next t :=
  ⟨_, by unfold State.MemOk; decide, rfl⟩

theorem witness_StepKeepsIndexAndProgramCounterBounded :
    ∃ t, edge.cfg.memSize = 4095 ∧ edge.Bounded ∧ step edge = .next t :=
  ⟨_, rfl, ⟨by decide, by decide, by decide⟩, rfl⟩

theorem witness_TransactionsKeepTheInvariants : edge.MemOk ∧ edge.Bounded :=
  ⟨by unfold State.MemOk; decide, ⟨by decide, by decide, by decide⟩⟩

end Sys2Proof.Tests
end

section
/-! PROOFS. The host's transactions of R7: what `load` and `reset()` do to memory, and that each transaction keeps the
canonical form and the bounds. -/

namespace Sys2Proof.Machine

/-! ### `set_keys` and `read_display` -/

/-- Bit `j` of the input read as a number, not as a bit of a vector (R7). -/
theorem State.key_setKeys_eq_decide (s : State) (k : Word) (j : Fin 16) :
    (s.setKeys k).key[j] = decide (k.toNat / 2 ^ j.val % 2 = 1) := by
  rw [State.key_setKeys, ← BitVec.testBit_toNat, Nat.testBit_eq_decide_div_mod_eq]

theorem State.keepsBut_setKeys (s : State) (k : Word) : KeepsBut [.keys] s (s.setKeys k) :=
  keepsBut_of (by simp)

theorem State.get_readDisplay (s : State) (p : Cell) : Display.get s.readDisplay p = s.cell p := rfl

/-- Settles O53: the new vector bit by bit, the frame of `set_keys`, and the grid that `read_display` gives. -/
theorem setKeysReplacesTheVector : Obligations.SetKeysReplacesTheVector := by
  intro s k
  exact ⟨s.key_setKeys_eq_decide k, s.keepsBut_setKeys k, s.get_readDisplay⟩

/-! ### `load` -/

theorem State.load_of_fits {s : State} {bytes : List Byte} (h : 0x200 + bytes.length ≤ s.cfg.memSize) :
    s.load bytes = (s.pokes 0x200 bytes, .ok) := by
  simp only [State.load, Params.programBase_toNat, if_pos h]

theorem State.load_of_not_fits {s : State} {bytes : List Byte} (h : ¬ 0x200 + bytes.length ≤ s.cfg.memSize) :
    s.load bytes = (s, .loadError) := by
  simp only [State.load, Params.programBase_toNat, if_neg h]

/-! ### The canonical form of memory -/

theorem State.memOk_setKeys {s : State} (h : s.MemOk) (k : Word) : (s.setKeys k).MemOk := by
  simpa only [State.MemOk, State.setKeys_cfg, State.setKeys_mem] using h

/-- `reset()` only leaves out the cells listed below the end of the font (R271). -/
theorem State.memOk_resetTx {s : State} (h : s.MemOk) : s.resetTx.MemOk :=
  Memory.wf_filter h _

theorem State.memOk_load {s : State} (h : s.MemOk) (bytes : List Byte) : (s.load bytes).1.MemOk := by
  by_cases hfit : 0x200 + bytes.length ≤ s.cfg.memSize
  · rw [State.load_of_fits hfit]
    exact State.memOk_pokes h bytes (.inr hfit)
  · rwa [State.load_of_not_fits hfit]

/-! ### The bounds of R27, R29 and R130 -/

/-- The bounds speak of `I`, `PC` and the stack only. -/
theorem State.Bounded.of_fields {s t : State} (h : s.Bounded) (hi : t.i = s.i) (hpc : t.pc = s.pc)
    (hstack : t.stack = s.stack) (hsp : t.sp = s.sp) : t.Bounded where
  index := hi ▸ h.index
  pc := hpc ▸ h.pc
  ret k hk := by
    rw [hstack]
    exact h.ret k (hsp ▸ hk)

/-- After construction `I` is 0, `PC` is `PROGRAM_BASE`, and no stack entry is in use (R39). -/
theorem State.bounded_constructed (c : Config) : (State.constructed c).Bounded where
  index := Nat.zero_le _
  pc := show Params.programBase.toNat ≤ 0x10FE by decide
  ret k hk := absurd hk (Nat.not_lt_zero k.val)

theorem State.bounded_setKeys {s : State} (h : s.Bounded) (k : Word) : (s.setKeys k).Bounded :=
  h.of_fields (s.setKeys_i k) (s.setKeys_pc k) (s.setKeys_stack k) (s.setKeys_sp k)

/-- `reset()` gives `I`, `PC` and the stack their values at construction (R271), so it meets the bounds from every
state. -/
theorem State.bounded_resetTx (s : State) : s.resetTx.Bounded :=
  (State.bounded_constructed s.cfg).of_fields rfl rfl rfl rfl

theorem State.bounded_load {s : State} (h : s.Bounded) (bytes : List Byte) : (s.load bytes).1.Bounded := by
  by_cases hfit : 0x200 + bytes.length ≤ s.cfg.memSize
  · rw [State.load_of_fits hfit]
    exact h.of_fields (State.pokes_i ..) (State.pokes_pc ..) (State.pokes_stack ..) (State.pokes_sp ..)
  · rwa [State.load_of_not_fits hfit]

/-- Settles O59, transaction by transaction. -/
theorem transactionsKeepTheInvariants : Obligations.TransactionsKeepTheInvariants := by
  intro s k bytes
  exact ⟨fun hmem => ⟨State.memOk_setKeys hmem k, State.memOk_resetTx hmem, State.memOk_load hmem bytes⟩,
    fun hb => ⟨State.bounded_setKeys hb k, s.bounded_resetTx, State.bounded_load hb bytes⟩⟩

end Sys2Proof.Machine
end

section
/-! PROOFS. What an instruction can change (10_state.md): the writers of each part of the state, the general registers,
`PC`, and the bounds of R27, R29 and R130. -/

namespace Sys2Proof.Machine

/-! ### What a meaning can answer -/

/-- A meaning that computes on from a check answers what it computes from the check's value, or the halted state entered
from where it began. -/
theorem State.commit_map_cases {α : Type} {s t : State} {r : Except Fatal α} {g : α → State}
    (h : s.commit (r.map g) = .next t) : (∃ a, r = .ok a ∧ t = g a) ∨ ∃ f, t = s.raiseFatal f := by
  cases r with
  | ok a => exact .inl ⟨a, rfl, by simpa using h.symm⟩
  | error f => exact .inr ⟨f, by simpa [State.raiseFatal] using h.symm⟩

/-- RET pops the last entry in use and goes on after it, or halts (R130, R31). -/
theorem exec_ret_cases {s t : State} (h : exec .ret s = .next t) :
    (∃ k : Fin 16, s.sp.val = k.val + 1 ∧ t = { s with sp := k.castSucc }.setPc (s.stack[k] + 2)) ∨
      ∃ f, t = s.raiseFatal f := by
  obtain ⟨p, hp, rfl⟩ | hf := State.commit_map_cases h
  · obtain hsp | ⟨k, hk⟩ := s.sp_cases
    · simp [State.pop_empty s hsp] at hp
    · rw [State.pop_of_succ s k hk] at hp
      cases hp
      exact .inl ⟨k, hk, rfl⟩
  · exact .inr hf

/-- CALL puts its own address into the first slot not in use, or halts (R132, R31). -/
theorem exec_call_cases {nnn : Addr12} {s t : State} (h : exec (.call nnn) s = .next t) :
    (∃ k : Fin 16, s.sp.val = k.val ∧
      t = { s with stack := s.stack.set k.val s.pc k.isLt, sp := k.succ }.setPc (addrOf nnn)) ∨
      ∃ f, t = s.raiseFatal f := by
  obtain ⟨u, hu, rfl⟩ | hf := State.commit_map_cases h
  · obtain hsp | ⟨k, hk⟩ := s.sp_cases_full
    · simp [State.push_full s s.pc hsp] at hu
    · rw [State.push_of_lt s s.pc k hk] at hu
      cases hu
      exact .inl ⟨k, hk, rfl⟩
  · exact .inr hf

/-- SE Vx, Vy skips or advances, and in its handler-only mode advances or stays (R135). -/
theorem exec_seReg_cases {x y : Reg} {s t : State} (h : exec (.seReg x y) s = .next t) :
    (s.cfg.seRegMode = .standard ∧ t = s.skipIf (decide (s.reg x = s.reg y))) ∨
      (s.cfg.seRegMode = .handlerOnly ∧ (t = s.advance ∨ t = s)) := by
  simp only [exec, execSeReg] at h
  cases hm : s.cfg.seRegMode with
  | standard =>
    rw [hm] at h
    cases h
    exact .inl ⟨rfl, rfl⟩
  | handlerOnly =>
    rw [hm] at h
    cases h
    refine .inr ⟨rfl, ?_⟩
    split
    · exact .inl rfl
    · exact .inr rfl

/-- LD Vx, K changes nothing while no key is pressed, and else takes the number of a pressed key (R223). -/
theorem exec_ldVxK_cases {x : Reg} {s t : State} (h : exec (.ldVxK x) s = .next t) :
    ((∀ k : Fin 16, s.key[k] = false) ∧ t = s) ∨
      ∃ k : Fin 16, s.key[k] = true ∧ t = (s.setReg x (BitVec.ofNat 8 k.val)).advance := by
  simp only [exec, execLdVxK] at h
  obtain hnone | ⟨k, hk, hlast⟩ := s.pressed_cases
  · rw [State.lastPressed_eq_none s hnone] at h
    cases h
    exact .inl ⟨hnone, rfl⟩
  · rw [State.lastPressed_eq_some s k hk hlast] at h
    cases h
    exact .inr ⟨k, hk, rfl⟩

@[simp] theorem State.takeRnd_snd_v (s : State) : s.takeRnd.2.v = s.v := by
  obtain ⟨r, n, h⟩ := s.takeRnd_snd
  rw [h]

@[simp] theorem State.takeRnd_snd_pc (s : State) : s.takeRnd.2.pc = s.pc := by
  obtain ⟨r, n, h⟩ := s.takeRnd_snd
  rw [h]

@[simp] theorem State.writeRF_pc (s : State) (x : Reg) (r : Byte) (f : Bool) : (s.writeRF x r f).pc = s.pc + 2 := by
  rw [State.writeRF_eq]

/-! ### The parts an operation may change -/

/-- The parts an operation may change: those it is a writer of, and `PC` and `HALT`, which `Part.writers` leaves out. -/
def mayChange (o : Op) : List Part :=
  .pc :: .halt :: [Part.mem, .regs, .index, .stack, .sp, .display, .keys, .dt, .st, .config, .random].filter
    fun p => decide (o ∈ p.writers)

theorem mem_mayChange {o : Op} {p : Part} : p ∈ mayChange o ↔ p = .pc ∨ p = .halt ∨ o ∈ p.writers := by
  cases p <;> simp [mayChange, Part.writers]

theorem keepsBut_mono {ps qs : List Part} {s t : State} (h : KeepsBut ps s t) (hsub : ps ⊆ qs) : KeepsBut qs s t :=
  fun p hp => h p fun hps => hp (hsub hps)

theorem State.keepsBut_raiseFatal (s : State) (f : Fatal) : KeepsBut [.halt] s (s.raiseFatal f) :=
  keepsBut_of (by simp)

theorem State.keepsBut_writeRF (s : State) (x : Reg) (r : Byte) (f : Bool) :
    KeepsBut [.regs, .pc] s (s.writeRF x r f) := by
  rw [State.writeRF_eq]
  exact keepsBut_of (by simp)

/-- A frame of a checked meaning: the check's failure changes `HALT` alone. -/
theorem keepsBut_of_commit_map {α : Type} {ps : List Part} {s t : State} {r : Except Fatal α} {g : α → State}
    (h : s.commit (r.map g) = .next t) (hhalt : .halt ∈ ps) (hg : ∀ a, KeepsBut ps s (g a)) : KeepsBut ps s t := by
  obtain ⟨a, -, rfl⟩ | ⟨f, rfl⟩ := State.commit_map_cases h
  · exact hg a
  · exact keepsBut_mono (s.keepsBut_raiseFatal f) (by simpa using hhalt)

/-- The frame of every instruction: an operation changes no part but those it may change. -/
theorem exec_keepsBut {i : Instr} {s t : State} (h : exec i s = .next t) : KeepsBut (mayChange i.op) s t := by
  have hhalt (o : Op) : Part.halt ∈ mayChange o := mem_mayChange.2 (.inr (.inl rfl))
  cases i with
  | ret =>
    obtain ⟨k, -, rfl⟩ | ⟨f, rfl⟩ := exec_ret_cases h <;>
      exact keepsBut_of (by simp [mem_mayChange, Part.writers, Instr.op])
  | call nnn =>
    obtain ⟨k, -, rfl⟩ | ⟨f, rfl⟩ := exec_call_cases h <;>
      exact keepsBut_of (by simp [mem_mayChange, Part.writers, Instr.op])
  | seReg x y =>
    obtain ⟨-, rfl⟩ | ⟨-, rfl | rfl⟩ := exec_seReg_cases h <;> exact keepsBut_of (by simp [mem_mayChange])
  | addReg x y | sub x y | shr x y | subn x y | shl x y =>
    cases h
    exact keepsBut_mono (s.keepsBut_writeRF x _ _) (by simp [mem_mayChange, Part.writers, Instr.op])
  | rnd x nn =>
    cases h
    obtain ⟨r, n, hr⟩ := s.takeRnd_snd
    exact keepsBut_of (by simp [hr, mem_mayChange, Part.writers, Instr.op])
  | ldVxK x =>
    obtain ⟨-, rfl⟩ | ⟨k, -, rfl⟩ := exec_ldVxK_cases h
    · exact keepsBut_refl _ _
    · exact keepsBut_of (by simp [mem_mayChange, Part.writers, Instr.op])
  | drw _ _ _ | skp _ | sknp _ | ldBVx _ | ldMemVx _ | ldVxMem _ =>
    exact keepsBut_of_commit_map h (hhalt _) fun a => keepsBut_of (by simp [mem_mayChange, Part.writers, Instr.op])
  | _ =>
    cases h
    exact keepsBut_of (by simp [mem_mayChange, Part.writers, Instr.op])

/-- Settles O21, from the frame of every instruction. -/
theorem eachPartHasOnlyItsWriters : Obligations.EachPartHasOnlyItsWriters := by
  intro i s t p h hpc hhalt hw
  exact exec_keepsBut h p (by simp [mem_mayChange, hpc, hhalt, hw])

/-! ### The general registers (R23) -/

theorem keepsRegsBut_advance_setReg {s s' : State} (h : s'.v = s.v) (x : Reg) (u : Byte) :
    KeepsRegsBut [x] s (s'.setReg x u).advance := by
  intro j hj
  simp only [List.mem_singleton] at hj
  simp [hj, State.reg_of_v h]

theorem State.keepsRegsBut_writeRF (s : State) (x : Reg) (r : Byte) (f : Bool) :
    KeepsRegsBut [x, flagReg] s (s.writeRF x r f) := by
  intro j hj
  simp only [List.mem_cons, List.not_mem_nil, or_false, not_or] at hj
  simp [State.writeRF_reg, hj]

/-- A register file that is kept as a whole keeps every register. -/
theorem keepsRegsBut_of_regs {s t : State} (h : Part.regs.Same s t) (xs : List Reg) : KeepsRegsBut xs s t :=
  fun x _ => h x

/-- Settles O22: the frame of the whole register file for an operation that writes no register, and the registers written
for one that does. -/
theorem registersChangeOnlyAsTabulated : Obligations.RegistersChangeOnlyAsTabulated := by
  intro i s t h
  cases i with
  | ldImm x _ | addImm x _ | ldReg x _ | orReg x _ | andReg x _ | xorReg x _ | ldVxDt x =>
    cases h
    exact keepsRegsBut_advance_setReg rfl x _
  | rnd x _ =>
    cases h
    exact keepsRegsBut_advance_setReg s.takeRnd_snd_v x _
  | ldVxK x =>
    obtain ⟨-, rfl⟩ | ⟨k, -, rfl⟩ := exec_ldVxK_cases h
    · exact fun _ _ => rfl
    · exact keepsRegsBut_advance_setReg rfl x _
  | addReg x _ | sub x _ | shr x _ | subn x _ | shl x _ =>
    cases h
    exact s.keepsRegsBut_writeRF x _ _
  | drw x y n =>
    obtain ⟨-, -, rfl⟩ | ⟨f, rfl⟩ := State.commit_map_cases h
    · exact keepsRegsBut_advance_setReg rfl flagReg _
    · exact fun _ _ => rfl
  | ldVxMem x =>
    obtain ⟨-, -, rfl⟩ | ⟨f, rfl⟩ := State.commit_map_cases h
    · intro j hj
      have hjx : ¬ j ≤ x := by simpa [writesRegs] using hj
      simp [State.reg_loadRegs, hjx]
    · exact fun _ _ => rfl
  | _ =>
    exact keepsRegsBut_of_regs (exec_keepsBut h .regs (by simp [mem_mayChange, Part.writers, Instr.op])) _

/-! ### `PC` (R26) -/

/-- A checked meaning that did not halt answers what it computes from the check's value. -/
theorem State.commit_map_running {α : Type} {s t : State} {r : Except Fatal α} {g : α → State}
    (h : s.commit (r.map g) = .next t) (ht : t.halt = none) : ∃ a, r = .ok a ∧ t = g a := by
  obtain hok | ⟨f, rfl⟩ := State.commit_map_cases h
  · exact hok
  · cases ht

theorem pcAdds_skipIf_of_iff {p : Prop} [Decidable p] {c : Bool} (s : State) (h : c = true ↔ p) :
    if p then PcAdds 4 s (s.skipIf c) else PcAdds 2 s (s.skipIf c) := by
  split
  · rw [h.2 ‹p›]
    exact pcAdds_skipIf_true s
  · rw [Bool.eq_false_iff.2 (mt h.1 ‹¬ p›)]
    exact pcAdds_skipIf_false s

theorem pcAdds_skipIf_of_iff_not {p : Prop} [Decidable p] {c : Bool} (s : State) (h : c = true ↔ ¬ p) :
    if p then PcAdds 2 s (s.skipIf c) else PcAdds 4 s (s.skipIf c) := by
  simpa only [ite_not] using pcAdds_skipIf_of_iff s h

theorem addrOf_toNat (nnn : Addr12) : (addrOf nnn).toNat = nnn.toNat := by
  have := nnn.isLt
  simp only [addrOf, BitVec.toNat_setWidth]
  omega

/-- Settles O23, row by row of the table of R26. -/
theorem programCounterChangesAsTabulated : Obligations.ProgramCounterChangesAsTabulated := by
  intro i s t _ hmode h ht
  cases i with
  | ret =>
    obtain ⟨k, hk, rfl⟩ | ⟨f, rfl⟩ := exec_ret_cases h
    · exact ⟨k, hk.symm, by simp [BitVec.toNat_add]⟩
    · cases ht
  | jp nnn =>
    cases h
    exact addrOf_toNat nnn
  | call nnn =>
    obtain ⟨k, -, rfl⟩ | ⟨f, rfl⟩ := exec_call_cases h
    · exact addrOf_toNat nnn
    · cases ht
  | jpV0 nnn =>
    cases h
    simp [State.offsetTarget]
  | seImm x nn =>
    cases h
    exact pcAdds_skipIf_of_iff s decide_eq_true_iff
  | sneImm x nn =>
    cases h
    exact pcAdds_skipIf_of_iff_not s decide_eq_true_iff
  | seReg x y =>
    obtain ⟨-, rfl⟩ | ⟨hm, -⟩ := exec_seReg_cases h
    · exact pcAdds_skipIf_of_iff s decide_eq_true_iff
    · cases hmode.symm.trans hm
  | sneReg x y =>
    cases h
    exact pcAdds_skipIf_of_iff_not s decide_eq_true_iff
  | skp x =>
    obtain ⟨b, hb, rfl⟩ := State.commit_map_running h ht
    exact pcAdds_skipIf_of_iff s (by simp [hb])
  | sknp x =>
    obtain ⟨b, hb, rfl⟩ := State.commit_map_running h ht
    exact pcAdds_skipIf_of_iff_not s (by simp [hb])
  | ldVxK x =>
    obtain ⟨hnone, rfl⟩ | ⟨k, hk, rfl⟩ := exec_ldVxK_cases h
    · rw [if_neg fun ⟨k, hk⟩ => Bool.false_ne_true ((hnone k).symm.trans hk)]
    · rw [if_pos ⟨k, hk⟩]
      exact pcAdds_advance_of rfl
  | drw _ _ _ | ldBVx _ | ldMemVx _ | ldVxMem _ =>
    obtain ⟨-, -, rfl⟩ := State.commit_map_running h ht
    exact pcAdds_advance_of (by simp)
  | addReg x _ | sub x _ | shr x _ | subn x _ | shl x _ =>
    cases h
    simp [PcAdds, BitVec.toNat_add]
  | rnd x nn =>
    cases h
    exact pcAdds_advance_of s.takeRnd_snd_pc
  | _ =>
    cases h
    exact pcAdds_advance_of rfl

/-! ### The bounds of `I` (R29) -/

theorem addrOf_le (nnn : Addr12) : (addrOf nnn).toNat ≤ 0xFFF := by
  rw [addrOf_toNat]
  have := nnn.isLt
  omega

theorem State.indexSum_le (s : State) (x : Reg) : (s.indexSum x).toNat ≤ 0xFFF := by
  simp only [State.indexSum, BitVec.toNat_ofNat]
  omega

theorem State.fontAddr_le (s : State) (x : Reg) : (s.fontAddr x).toNat ≤ 0xFFF := by
  unfold State.fontAddr
  cases s.cfg.fontAddrMode with
  | mod5 =>
    simp only [BitVec.toNat_ofNat]
    omega
  | glyph =>
    simp only [BitVec.toNat_ofNat, Params.fontBase, Nat.zero_add]
    have := Nat.mod_le ((s.reg x).toNat % 16 * 5) (2 ^ 16)
    omega

theorem State.index_le_rangeBase (s : State) : s.i.toNat ≤ s.rangeBase := by
  unfold State.rangeBase
  split <;> omega

/-- A register-range transfer completes only where its last address is in memory, and `I` ends no further (R184, R185). -/
theorem State.indexAfterRange_le {s : State} {x : Reg} {u : Unit}
    (h : s.checkRange s.rangeBase (x.val + 1) = .ok u) : (s.indexAfterRange x).toNat ≤ s.cfg.memSize := by
  rw [State.checkRange_eq] at h
  have hbase := s.index_le_rangeBase
  have hfit : s.rangeBase + (x.val + 1) ≤ s.cfg.memSize := by
    by_contra hn
    simp [hn] at h
  simp only [State.indexAfterRange, BitVec.toNat_ofNat]
  have := Nat.mod_le (s.i.toNat + x.val + 1) (2 ^ 16)
  omega

theorem exec_index_le {i : Instr} {s t : State} (hmem : s.cfg.memSize = 4095) (hi : s.i.toNat ≤ 0xFFF)
    (h : exec i s = .next t) : t.i.toNat ≤ 0xFFF := by
  cases i with
  | ldI nnn =>
    cases h
    exact addrOf_le nnn
  | addIVx x =>
    cases h
    exact s.indexSum_le x
  | ldFVx x =>
    cases h
    exact s.fontAddr_le x
  | ldMemVx x | ldVxMem x =>
    obtain ⟨_, hfit, rfl⟩ | ⟨f, rfl⟩ := State.commit_map_cases h
    · exact hmem ▸ State.indexAfterRange_le hfit
    · exact hi
  | _ =>
    have hsame : t.i = s.i := exec_keepsBut h .index (by simp [mem_mayChange, Part.writers, Instr.op])
    exact hsame ▸ hi

/-! ### The bounds of `PC` (R27) -/

/-- Where an instruction can leave `PC`, in every setting of the parameters. -/
inductive PcMove (s : State) : Word → Prop where
  | stay : PcMove s s.pc
  | advance : PcMove s (s.pc + 2)
  | skip : PcMove s (s.pc + 4)
  | jump (nnn : Addr12) : PcMove s (addrOf nnn)
  | offset (nnn : Addr12) : PcMove s (s.offsetTarget nnn)
  | popped (k : Fin 16) (h : k.val < s.sp.val) : PcMove s (s.stack[k] + 2)

theorem pcMove_skipIf (s : State) (c : Bool) : PcMove s (s.skipIf c).pc := by
  cases c with
  | true => exact .skip
  | false => exact .advance

theorem exec_pcMove {i : Instr} {s t : State} (h : exec i s = .next t) : PcMove s t.pc := by
  cases i with
  | ret =>
    obtain ⟨k, hk, rfl⟩ | ⟨f, rfl⟩ := exec_ret_cases h
    · exact .popped k (by omega)
    · exact .stay
  | jp nnn =>
    cases h
    exact .jump nnn
  | call nnn =>
    obtain ⟨k, -, rfl⟩ | ⟨f, rfl⟩ := exec_call_cases h
    · exact .jump nnn
    · exact .stay
  | jpV0 nnn =>
    cases h
    exact .offset nnn
  | seImm _ _ | sneImm _ _ | sneReg _ _ =>
    cases h
    exact pcMove_skipIf s _
  | seReg x y =>
    obtain ⟨-, rfl⟩ | ⟨-, rfl | rfl⟩ := exec_seReg_cases h
    · exact pcMove_skipIf s _
    · exact .advance
    · exact .stay
  | skp _ | sknp _ =>
    obtain ⟨b, -, rfl⟩ | ⟨f, rfl⟩ := State.commit_map_cases h
    · exact pcMove_skipIf s _
    · exact .stay
  | ldVxK x =>
    obtain ⟨-, rfl⟩ | ⟨k, -, rfl⟩ := exec_ldVxK_cases h
    · exact .stay
    · exact .advance
  | drw _ _ _ | ldBVx _ | ldMemVx _ | ldVxMem _ =>
    obtain ⟨-, -, rfl⟩ | ⟨f, rfl⟩ := State.commit_map_cases h
    · simpa using PcMove.advance
    · exact .stay
  | addReg _ _ | sub _ _ | shr _ _ | subn _ _ | shl _ _ | rnd _ _ =>
    cases h
    simpa using PcMove.advance
  | _ =>
    cases h
    exact .advance

theorem State.offsetTarget_le (s : State) (nnn : Addr12) : (s.offsetTarget nnn).toNat ≤ 0x10FE := by
  have := nnn.isLt
  have := (s.reg 0).isLt
  simp only [State.offsetTarget, BitVec.toNat_ofNat]
  omega

/-- From an address that can be fetched from, no move goes past 0x10FE: the furthest is JP V0 (R27). -/
theorem PcMove.le {s : State} {a : Word} (h : PcMove s a) (hb : s.Bounded) (hpc : s.pc.toNat ≤ 0xFFD) :
    a.toNat ≤ 0x10FE := by
  cases h with
  | stay => omega
  | advance => bv_omega
  | skip => bv_omega
  | jump nnn =>
    have := addrOf_le nnn
    omega
  | offset nnn => exact s.offsetTarget_le nnn
  | popped k hk =>
    have := hb.ret k hk
    bv_omega

/-! ### The bounds of the return addresses (R130) -/

/-- CALL pushes the address it was fetched from; RET leaves fewer entries in use; nothing else touches the stack. -/
theorem exec_returnAddress_le {i : Instr} {s t : State} (hb : s.Bounded) (hpc : s.pc.toNat ≤ 0xFFD)
    (h : exec i s = .next t) (j : Fin 16) (hj : j.val < t.sp.val) : (t.stack[j]).toNat ≤ 0xFFD := by
  cases i with
  | call nnn =>
    obtain ⟨k, hk, rfl⟩ | ⟨f, rfl⟩ := exec_call_cases h
    · have hjk : j.val ≤ k.val := Nat.le_of_lt_succ hj
      by_cases hjeq : k.val = j.val
      · simpa [Vector.getElem_set, hjeq] using hpc
      · simpa [Vector.getElem_set, hjeq] using hb.ret j (by omega)
    · exact hb.ret j hj
  | ret =>
    obtain ⟨k, hk, rfl⟩ | ⟨f, rfl⟩ := exec_ret_cases h
    · have hjk : j.val < k.val := hj
      exact hb.ret j (by omega)
    · exact hb.ret j hj
  | _ =>
    have hsp : t.sp = s.sp := exec_keepsBut h .sp (by simp [mem_mayChange, Part.writers, Instr.op])
    have hstack : t.stack[j] = s.stack[j] :=
      exec_keepsBut h .stack (by simp [mem_mayChange, Part.writers, Instr.op]) j
    rw [hstack]
    exact hb.ret j (hsp ▸ hj)

/-! ### The bounds along a step -/

theorem exec_bounded {i : Instr} {s t : State} (hmem : s.cfg.memSize = 4095) (hb : s.Bounded)
    (hpc : s.pc.toNat ≤ 0xFFD) (h : exec i s = .next t) : t.Bounded where
  index := exec_index_le hmem hb.index h
  pc := (exec_pcMove h).le hb hpc
  ret := exec_returnAddress_le hb hpc h

/-- A fetch succeeds only where both bytes of the word are in memory (R102). -/
theorem State.pc_lt_of_fetch {s : State} {w : Word} (h : s.fetch = .ok w) : s.pc.toNat + 1 < s.cfg.memSize := by
  unfold State.fetch at h
  split at h
  · cases h
  · split at h
    · cases h
    · omega

theorem State.bounded_housekeeping {s : State} (h : s.Bounded) : s.housekeeping.Bounded :=
  h.of_fields s.housekeeping_i s.housekeeping_pc s.housekeeping_stack s.housekeeping_sp

theorem State.bounded_raiseFatal {s : State} (h : s.Bounded) (f : Fatal) : (s.raiseFatal f).Bounded :=
  h.of_fields (s.raiseFatal_i f) (s.raiseFatal_pc f) (s.raiseFatal_stack f) (s.raiseFatal_sp f)

/-- An unknown word moves `PC` on by 2 or leaves it (R108). -/
theorem State.bounded_skipUnknown {s : State} (h : s.Bounded) (hpc : s.pc.toNat ≤ 0xFFD) : s.skipUnknown.Bounded := by
  unfold State.skipUnknown
  cases s.cfg.unknownPolicy with
  | advance => exact { index := h.index, pc := PcMove.advance.le h hpc, ret := h.ret }
  | stall => exact h

/-- The execute stage ends in the state the handler left, after the housekeeping where it is not halted. -/
theorem State.endExec_state_cases (t : State) : t.endExec.state = t ∨ t.endExec.state = t.housekeeping := by
  cases hh : t.halt with
  | some f => exact .inl (by rw [State.endExec_of_halted hh]; rfl)
  | none => exact .inr (by rw [State.endExec_of_running hh]; rfl)

/-- Settles O58, stage by stage of the cycle: a word is executed only where its two bytes are in memory, so `PC` is then
at most 0xFFD. -/
theorem stepKeepsIndexAndProgramCounterBounded : Obligations.StepKeepsIndexAndProgramCounterBounded := by
  intro s t hmem hb hstep
  obtain ⟨r, hr, rfl⟩ := runCycle_of_step hstep
  have hpc {w : Word} (hf : s.fetch = .ok w) : s.pc.toNat ≤ 0xFFD := by
    have := State.pc_lt_of_fetch hf
    omega
  obtain ⟨f, -, rfl⟩ | ⟨-, f, -, rfl⟩ | ⟨-, w, e, hf, -, rfl⟩ | ⟨-, w, i, u, hf, -, hu, rfl⟩ := runCycle_cases hr
  · exact ⟨hmem, hb⟩
  · exact ⟨hmem, State.bounded_raiseFatal hb f⟩
  · refine ⟨?_, State.bounded_housekeeping (State.bounded_skipUnknown hb (hpc hf))⟩
    show s.skipUnknown.cfg.memSize = 4095
    rwa [State.skipUnknown_eq]
  · have hcfg : u.cfg = s.cfg := exec_keepsBut hu .config (by simp [mem_mayChange, Part.writers])
    have hub : u.Bounded := exec_bounded hmem hb (hpc hf) hu
    obtain hend | hend := u.endExec_state_cases
    · rw [hend]
      exact ⟨hcfg ▸ hmem, hub⟩
    · rw [hend]
      exact ⟨hcfg ▸ hmem, State.bounded_housekeeping hub⟩

/-! ### The state after reset -/

/-- At construction no byte differs from its contents at construction, so memory lists none (R39). -/
theorem State.memOk_constructed (c : Config) : (State.constructed c).MemOk := rfl

/-- Settles O56: `State.reset` is construction with the default parameters. -/
theorem resetMeetsTheInvariants : Obligations.ResetMeetsTheInvariants :=
  ⟨State.memOk_constructed _, State.bounded_constructed _,
    fun c => ⟨State.memOk_constructed c, State.bounded_constructed c⟩⟩

end Sys2Proof.Machine
end

section
/-! PROOFS. Memory (20_memory.md): what is read of consecutive bytes stored, the fetch, and the canonical form along a
step. -/

namespace Sys2Proof.Machine

/-! ### Consecutive bytes stored -/

/-- The byte at offset `j` of the bytes stored is the `j`-th of them (R53). -/
theorem State.peek_pokes_add (s : State) (a : Nat) (us : List Byte) (j : Nat) (h : j < us.length) :
    (s.pokes a us).peek (a + j) = us[j] := by
  rw [State.peek_pokes, dif_pos ⟨by omega, by omega⟩]
  simp only [Nat.add_sub_cancel_left]

theorem State.keepsBytesBut_pokes (s : State) (a : Nat) (us : List Byte) : KeepsBytesBut a us.length s (s.pokes a us) :=
  fun b hb => s.peek_pokes_outside a us b hb

theorem State.keepsBut_pokes (s : State) (a : Nat) (us : List Byte) : KeepsBut [.mem] s (s.pokes a us) :=
  keepsBut_of (by simp)

/-- Settles O55: a program that fits is stored at 0x200 on, and one that does not leaves the state as it is. -/
theorem loadCopiesOrWritesNothing : Obligations.LoadCopiesOrWritesNothing := by
  intro s bytes
  refine ⟨fun hfit => ⟨s.pokes 0x200 bytes, State.load_of_fits (by omega), ?_⟩,
    fun hlong => State.load_of_not_fits (by omega)⟩
  exact ⟨s.peek_pokes_add 0x200 bytes, s.keepsBytesBut_pokes 0x200 bytes, s.keepsBut_pokes 0x200 bytes⟩

/-! ### The fetch (R52, R102) -/

theorem State.fetch_of_lt {s : State} (h : s.pc.toNat + 1 < s.cfg.memSize) :
    s.fetch = .ok (wordOfBytes (s.peek s.pc.toNat) (s.peek (s.pc.toNat + 1))) := by
  unfold State.fetch
  rw [if_neg (by omega), if_neg (by omega)]

theorem State.fetch_of_pc_outside {s : State} (h : s.cfg.memSize ≤ s.pc.toNat) :
    s.fetch = .error (.memoryBounds s.pc.toNat) := by
  unfold State.fetch
  rw [if_pos h]

theorem State.fetch_of_pc_last {s : State} (h : s.pc.toNat < s.cfg.memSize) (h1 : s.cfg.memSize ≤ s.pc.toNat + 1) :
    s.fetch = .error (.memoryBounds (s.pc.toNat + 1)) := by
  unfold State.fetch
  rw [if_neg (by omega), if_pos h1]

/-- Settles O7, in the order in which the fetch checks its two addresses. -/
theorem fetchIsBigEndianAndBounded : Obligations.FetchIsBigEndianAndBounded := by
  intro s
  exact ⟨fun h => ⟨_, State.fetch_of_lt h, wordOfBytes_toNat _ _⟩, State.fetch_of_pc_outside, State.fetch_of_pc_last⟩

/-- The word fetched where bytes have been stored at `PC` is made of the first two of them. -/
theorem State.fetch_pokes (s : State) (us : List Byte) (hlen : 2 ≤ us.length) (h : s.pc.toNat + 1 < s.cfg.memSize) :
    (s.pokes s.pc.toNat us).fetch = .ok (wordOfBytes us[0] us[1]) := by
  have hhigh : (s.pokes s.pc.toNat us).peek s.pc.toNat = us[0] := s.peek_pokes_add s.pc.toNat us 0 (by omega)
  have hlow : (s.pokes s.pc.toNat us).peek (s.pc.toNat + 1) = us[1] := s.peek_pokes_add s.pc.toNat us 1 (by omega)
  rw [State.fetch_of_lt (by simpa using h)]
  simp only [State.pokes_pc, hhigh, hlow]

/-! ### The two instructions that store (R183, R184) -/

theorem State.checkRange_eq_ok_iff {s : State} {a n : Nat} :
    s.checkRange a n = .ok () ↔ n = 0 ∨ a + n ≤ s.cfg.memSize := by
  rw [State.checkRange_eq]
  split <;> simp [*]

theorem decimalDigits_length (u : Byte) : (decimalDigits u).length = 3 := rfl

theorem decimalDigits_hundreds (u : Byte) (h : 0 < (decimalDigits u).length) :
    (decimalDigits u)[0].toNat = u.toNat / 100 := by
  have := u.isLt
  simp only [decimalDigits, List.getElem_cons_zero, BitVec.toNat_ofNat]
  omega

theorem decimalDigits_tens (u : Byte) (h : 1 < (decimalDigits u).length) :
    (decimalDigits u)[1].toNat = u.toNat / 10 % 10 := by
  simp only [decimalDigits, List.getElem_cons_succ, List.getElem_cons_zero, BitVec.toNat_ofNat]
  omega

theorem State.regsUpTo_length (s : State) (x : Reg) : (s.regsUpTo x).length = x.val + 1 := by
  simp only [State.regsUpTo, List.length_take, Vector.length_toList]
  omega

theorem State.regsUpTo_getElem (s : State) {x j : Reg} (h : j ≤ x) :
    (s.regsUpTo x)[j.val]'(by simpa [State.regsUpTo_length] using Nat.lt_succ_of_le h) = s.reg j := by
  simp only [State.regsUpTo, State.reg, List.getElem_take, Vector.getElem_toList]

theorem exec_ldBVx_of_fits {s : State} (x : Reg) (h : s.i.toNat + 3 ≤ s.cfg.memSize) :
    exec (.ldBVx x) s = .next (s.pokes s.i.toNat (decimalDigits (s.reg x))).advance := by
  have hcheck : s.checkRange s.i.toNat 3 = .ok () := State.checkRange_eq_ok_iff.2 (.inr h)
  simp only [exec, execLdBVx, hcheck, except_map_ok, State.commit_ok]

theorem exec_ldMemVx_of_fits {s : State} (x : Reg) (h : s.rangeBase + (x.val + 1) ≤ s.cfg.memSize) :
    exec (.ldMemVx x) s =
      .next ((s.pokes s.rangeBase (s.regsUpTo x)).setIndex (s.indexAfterRange x)).advance := by
  have hcheck : s.checkRange s.rangeBase (x.val + 1) = .ok () := State.checkRange_eq_ok_iff.2 (.inr h)
  simp only [exec, execLdMemVx, hcheck, except_map_ok, State.commit_ok]

/-! ### Storing the next instruction (R66) -/

/-- A running block's step is the meaning of its current instruction, then the housekeeping, where that did not halt. -/
theorem step_of_current {s t : State} {i : Instr} (hs : s.halt = none) (hi : s.current = some i)
    (h : exec i s = .next t) (ht : t.halt = none) : step s = .next t.housekeeping := by
  obtain ⟨w, hf, hd⟩ := State.current_eq_some.1 hi
  rw [step_of_runCycle (runCycle_exec hs hf hd h), State.endExec_of_running ht]
  rfl

/-- An instruction that stores bytes at `PC + 2`, sets `I` (LD B: to what it held) and advances leaves the first two of
them, big-endian, as the word that the next cycle fetches. -/
theorem step_fetches_stored_word {s : State} {i : Instr} {us : List Byte} {j : Word} (hs : s.halt = none)
    (hpc : s.pc.toNat + 2 < 65536) (hi : s.current = some i) (hlen : 2 ≤ us.length)
    (hfit : s.pc.toNat + 2 + us.length ≤ s.cfg.memSize)
    (h : exec i s = .next ((s.pokes (s.pc.toNat + 2) us).setIndex j).advance) :
    ∃ t w, step s = .next t ∧ t.halt = none ∧ t.fetch = .ok w ∧ w.toNat = us[0].toNat * 256 + us[1].toNat := by
  have hadv : s.advance.pc.toNat = s.pc.toNat + 2 := by
    simp [BitVec.toNat_add]
    omega
  have hfetch := s.advance.fetch_pokes us hlen (by simp only [hadv, State.advance_cfg]; omega)
  rw [hadv] at hfetch
  exact ⟨_, _, step_of_current hs hi h hs, hs, hfetch, wordOfBytes_toNat _ _⟩

/-- Settles O43: both instructions store from `PC + 2` on, one a byte's digits, the other the registers from `V[0]`. -/
theorem storedBytesAreFetchedByTheNextCycle : Obligations.StoredBytesAreFetchedByTheNextCycle := by
  intro s x hs hpc
  refine ⟨fun hcur hi hfit => ?_, fun hcur hx hbase hfit => ?_⟩
  · have hlen := decimalDigits_length (s.reg x)
    have hexec := exec_ldBVx_of_fits x (show s.i.toNat + 3 ≤ s.cfg.memSize by omega)
    rw [hi] at hexec
    have hstore := step_fetches_stored_word (us := decimalDigits (s.reg x)) (j := s.i) hs hpc hcur (by omega)
      (by omega) hexec
    rwa [decimalDigits_hundreds, decimalDigits_tens] at hstore
  · have hlen := s.regsUpTo_length x
    have hexec := exec_ldMemVx_of_fits x (show s.rangeBase + (x.val + 1) ≤ s.cfg.memSize by omega)
    rw [hbase] at hexec
    have hstore := step_fetches_stored_word (us := s.regsUpTo x) hs hpc hcur (by omega) (by omega) hexec
    have h0 : (s.regsUpTo x)[0] = s.reg 0 := s.regsUpTo_getElem (j := 0) (Fin.zero_le x)
    have h1 : (s.regsUpTo x)[1] = s.reg 1 := s.regsUpTo_getElem (j := 1) hx
    rwa [h0, h1] at hstore

/-! ### The canonical form along a step -/

theorem State.MemOk.of_fields {s t : State} (h : s.MemOk) (hmem : t.mem = s.mem) (hcfg : t.cfg = s.cfg) : t.MemOk := by
  unfold State.MemOk at *
  rwa [hmem, hcfg]

/-- An operation that is no writer of memory keeps it as it is listed (R54). -/
theorem exec_mem_of_not_writer {i : Instr} {s t : State} (hw : i.op ∉ Part.mem.writers) (h : exec i s = .next t) :
    t.mem = s.mem := by
  cases i with
  | ldBVx _ | ldMemVx _ => simp [Part.writers, Instr.op] at hw
  | ret =>
    obtain ⟨k, -, rfl⟩ | ⟨f, rfl⟩ := exec_ret_cases h <;> rfl
  | call nnn =>
    obtain ⟨k, -, rfl⟩ | ⟨f, rfl⟩ := exec_call_cases h <;> rfl
  | seReg x y =>
    obtain ⟨-, rfl⟩ | ⟨-, rfl | rfl⟩ := exec_seReg_cases h <;> rfl
  | ldVxK x =>
    obtain ⟨-, rfl⟩ | ⟨k, -, rfl⟩ := exec_ldVxK_cases h <;> rfl
  | addReg x _ | sub x _ | shr x _ | subn x _ | shl x _ =>
    cases h
    rw [State.writeRF_eq]
  | rnd x nn =>
    cases h
    obtain ⟨r, n, hr⟩ := s.takeRnd_snd
    simp [hr]
  | drw _ _ _ | skp _ | sknp _ | ldVxMem _ =>
    obtain ⟨a, -, rfl⟩ | ⟨f, rfl⟩ := State.commit_map_cases h <;> simp
  | _ =>
    cases h
    rfl

/-- The two instructions that store check their range first, so their writes are inside memory (R56). -/
theorem exec_memOk {i : Instr} {s t : State} (hs : s.MemOk) (h : exec i s = .next t) : t.MemOk := by
  cases i with
  | ldBVx x =>
    obtain ⟨_, hfit, rfl⟩ | ⟨f, rfl⟩ := State.commit_map_cases h
    · have hin := (State.checkRange_eq_ok_iff.1 hfit).resolve_left (by omega)
      exact (State.memOk_pokes hs _ (.inr hin)).of_fields rfl rfl
    · exact hs.of_fields rfl rfl
  | ldMemVx x =>
    obtain ⟨_, hfit, rfl⟩ | ⟨f, rfl⟩ := State.commit_map_cases h
    · have hin := (State.checkRange_eq_ok_iff.1 hfit).resolve_left (by omega)
      rw [← s.regsUpTo_length x] at hin
      exact (State.memOk_pokes hs _ (.inr hin)).of_fields rfl rfl
    · exact hs.of_fields rfl rfl
  | _ =>
    have hcfg : t.cfg = s.cfg := exec_keepsBut h .config (by simp [mem_mayChange, Part.writers])
    exact hs.of_fields (exec_mem_of_not_writer (by simp [Part.writers, Instr.op]) h) hcfg

/-- Settles O57, stage by stage of the cycle: only the execute stage touches memory. -/
theorem stepKeepsMemoryCanonical : Obligations.StepKeepsMemoryCanonical := by
  intro s t hs hstep
  obtain ⟨r, hr, rfl⟩ := runCycle_of_step hstep
  obtain ⟨f, -, rfl⟩ | ⟨-, f, -, rfl⟩ | ⟨-, w, e, -, -, rfl⟩ | ⟨-, w, i, u, -, -, hu, rfl⟩ := runCycle_cases hr
  · exact hs
  · exact hs.of_fields rfl rfl
  · refine hs.of_fields (t := s.skipUnknown.housekeeping) ?_ ?_ <;> rw [State.skipUnknown_eq] <;> rfl
  · have huOk : u.MemOk := exec_memOk hs hu
    obtain hend | hend := u.endExec_state_cases <;> rw [hend]
    · exact huOk
    · exact huOk.of_fields u.housekeeping_mem u.housekeeping_cfg

end Sys2Proof.Machine
end

section
/-! PROOFS. Encoding (30_encoding.md): the decoder is the opcode map, in both directions, and the encoder's words are
read back. -/

namespace Sys2Proof

/-! ### The fields of a laid-out word (R81, R82) -/

@[simp] theorem fieldNNN_layoutA (f : BitVec 4) (nnn : Addr12) : fieldNNN (layoutA f nnn) = nnn := by
  apply BitVec.eq_of_toNat_eq
  rw [fieldNNN_toNat, layoutA_toNat]
  omega

@[simp] theorem fieldX_layoutXK (f : BitVec 4) (x : Reg) (nn : Byte) : fieldX (layoutXK f x nn) = x := by
  apply Fin.ext
  rw [fieldX_val, layoutXK_toNat]
  omega

@[simp] theorem fieldNN_layoutXK (f : BitVec 4) (x : Reg) (nn : Byte) : fieldNN (layoutXK f x nn) = nn := by
  apply BitVec.eq_of_toNat_eq
  rw [fieldNN_toNat, layoutXK_toNat]
  omega

@[simp] theorem fieldX_layoutXYN (f : BitVec 4) (x y : Reg) (n : BitVec 4) : fieldX (layoutXYN f x y n) = x := by
  apply Fin.ext
  rw [fieldX_val, layoutXYN_toNat]
  omega

@[simp] theorem fieldY_layoutXYN (f : BitVec 4) (x y : Reg) (n : BitVec 4) : fieldY (layoutXYN f x y n) = y := by
  apply Fin.ext
  rw [fieldY_val, layoutXYN_toNat]
  omega

@[simp] theorem fieldN_layoutXYN (f : BitVec 4) (x y : Reg) (n : BitVec 4) : fieldN (layoutXYN f x y n) = n := by
  apply BitVec.eq_of_toNat_eq
  rw [fieldN_toNat, layoutXYN_toNat]
  omega

/-! ### A word laid out from its own fields -/

theorem layoutA_of_fields {w : Word} {f : BitVec 4} (hf : fieldFamily w = f) : layoutA f (fieldNNN w) = w := by
  subst hf
  apply BitVec.eq_of_toNat_eq
  rw [layoutA_toNat, fieldFamily_toNat, fieldNNN_toNat]
  omega

theorem layoutXK_of_fields {w : Word} {f : BitVec 4} {nn : Byte} (hf : fieldFamily w = f) (hnn : fieldNN w = nn) :
    layoutXK f (fieldX w) nn = w := by
  subst hf hnn
  apply BitVec.eq_of_toNat_eq
  rw [layoutXK_toNat, fieldFamily_toNat, fieldX_val, fieldNN_toNat]
  omega

theorem layoutXYN_of_fields {w : Word} {f n : BitVec 4} (hf : fieldFamily w = f) (hn : fieldN w = n) :
    layoutXYN f (fieldX w) (fieldY w) n = w := by
  subst hf hn
  exact (word_eq_layoutXYN w).symm

/-! ### The masks of the opcode map: which fields two words share (R85) -/

/-- No row asks for a bit that its mask leaves out. -/
theorem Op.value_and_mask (o : Op) : o.value &&& o.mask = o.value := by cases o <;> decide

section
variable {o : Op} {w : Word}

theorem Op.row_iff_family (hm : o.mask = 0xF000) : w &&& o.mask = o.value ↔ fieldFamily w = fieldFamily o.value := by
  rw [← o.value_and_mask, hm]
  simp only [bitVec_eq_iff_toNat, and_mask_family, fieldFamily_toNat]
  omega

theorem Op.row_iff_family_n (hm : o.mask = 0xF00F) :
    w &&& o.mask = o.value ↔ fieldFamily w = fieldFamily o.value ∧ fieldN w = fieldN o.value := by
  rw [← o.value_and_mask, hm]
  simp only [bitVec_eq_iff_toNat, and_mask_family_n, fieldFamily_toNat, fieldN_toNat]
  omega

theorem Op.row_iff_family_nn (hm : o.mask = 0xF0FF) :
    w &&& o.mask = o.value ↔ fieldFamily w = fieldFamily o.value ∧ fieldNN w = fieldNN o.value := by
  rw [← o.value_and_mask, hm]
  simp only [bitVec_eq_iff_toNat, and_mask_family_nn, fieldFamily_toNat, fieldNN_toNat]
  omega

end

/-! ### The decoder is the opcode map (R84, R85) -/

/-- The instruction of a row of the opcode map with the operands that the fields of `w` give it (R81, R82). -/
def Op.withFieldsOf (o : Op) (w : Word) : Instr :=
  match o with
  | .cls => .cls
  | .ret => .ret
  | .jp => .jp (fieldNNN w)
  | .call => .call (fieldNNN w)
  | .seImm => .seImm (fieldX w) (fieldNN w)
  | .sneImm => .sneImm (fieldX w) (fieldNN w)
  | .seReg => .seReg (fieldX w) (fieldY w)
  | .ldImm => .ldImm (fieldX w) (fieldNN w)
  | .addImm => .addImm (fieldX w) (fieldNN w)
  | .ldReg => .ldReg (fieldX w) (fieldY w)
  | .orReg => .orReg (fieldX w) (fieldY w)
  | .andReg => .andReg (fieldX w) (fieldY w)
  | .xorReg => .xorReg (fieldX w) (fieldY w)
  | .addReg => .addReg (fieldX w) (fieldY w)
  | .sub => .sub (fieldX w) (fieldY w)
  | .shr => .shr (fieldX w) (fieldY w)
  | .subn => .subn (fieldX w) (fieldY w)
  | .shl => .shl (fieldX w) (fieldY w)
  | .sneReg => .sneReg (fieldX w) (fieldY w)
  | .ldI => .ldI (fieldNNN w)
  | .jpV0 => .jpV0 (fieldNNN w)
  | .rnd => .rnd (fieldX w) (fieldNN w)
  | .drw => .drw (fieldX w) (fieldY w) (fieldN w).toNat
  | .skp => .skp (fieldX w)
  | .sknp => .sknp (fieldX w)
  | .ldVxDt => .ldVxDt (fieldX w)
  | .ldVxK => .ldVxK (fieldX w)
  | .ldDtVx => .ldDtVx (fieldX w)
  | .ldStVx => .ldStVx (fieldX w)
  | .addIVx => .addIVx (fieldX w)
  | .ldFVx => .ldFVx (fieldX w)
  | .ldBVx => .ldBVx (fieldX w)
  | .ldMemVx => .ldMemVx (fieldX w)
  | .ldVxMem => .ldVxMem (fieldX w)

@[simp] theorem Op.op_withFieldsOf (o : Op) (w : Word) : (o.withFieldsOf w).op = o := by cases o <;> rfl

/-- A word in a row decodes to that row's instruction: the fields that the mask keeps are the row's, and they alone
choose the decoder's branch. -/
theorem decodeWord_of_row {o : Op} {w : Word} (h : w &&& o.mask = o.value) :
    decodeWord w = .ok (o.withFieldsOf w) := by
  cases o with
  | jp | call | seImm | sneImm | seReg | ldImm | addImm | sneReg | ldI | jpV0 | rnd | drw =>
    have hf := (Op.row_iff_family rfl).1 h
    simp only [decodeWord, hf]
    rfl
  | cls | ret =>
    obtain ⟨hf, hn⟩ := (Op.row_iff_family_n rfl).1 h
    simp only [decodeWord, decodeFamily0, hf, hn]
    rfl
  | ldReg | orReg | andReg | xorReg | addReg | sub | shr | subn | shl =>
    obtain ⟨hf, hn⟩ := (Op.row_iff_family_n rfl).1 h
    simp only [decodeWord, decodeFamily8, hf, hn]
    rfl
  | skp | sknp =>
    obtain ⟨hf, hnn⟩ := (Op.row_iff_family_nn rfl).1 h
    simp only [decodeWord, decodeFamilyE, hf, hnn]
    rfl
  | ldVxDt | ldVxK | ldDtVx | ldStVx | addIVx | ldFVx | ldBVx | ldMemVx | ldVxMem =>
    obtain ⟨hf, hnn⟩ := (Op.row_iff_family_nn rfl).1 h
    simp only [decodeWord, decodeFamilyF, hf, hnn]
    rfl

/-! The converse: each branch of the decoder answers the instruction of a row that the branch's word is in. -/

/-- The instruction's row is the word's, and its operands are the word's fields. -/
def ReadsItsRow (w : Word) (i : Instr) : Prop := w &&& i.op.mask = i.op.value ∧ i.op.withFieldsOf w = i

theorem decodeFamily0_readsItsRow {w : Word} {i : Instr} (hf : fieldFamily w = 0x0#4)
    (h : decodeFamily0 w = .ok i) : ReadsItsRow w i := by
  unfold decodeFamily0 at h
  split_ifs at h <;> cases h <;> dsimp only [ReadsItsRow, Instr.op] <;>
    exact ⟨(Op.row_iff_family_n rfl).2 ⟨hf, ‹fieldN w = _›⟩, rfl⟩

theorem decodeFamily8_readsItsRow {w : Word} {i : Instr} (hf : fieldFamily w = 0x8#4)
    (h : decodeFamily8 w = .ok i) : ReadsItsRow w i := by
  unfold decodeFamily8 at h
  split_ifs at h <;> cases h <;> dsimp only [ReadsItsRow, Instr.op] <;>
    exact ⟨(Op.row_iff_family_n rfl).2 ⟨hf, ‹fieldN w = _›⟩, rfl⟩

theorem decodeFamilyE_readsItsRow {w : Word} {i : Instr} (hf : fieldFamily w = 0xE#4)
    (h : decodeFamilyE w = .ok i) : ReadsItsRow w i := by
  unfold decodeFamilyE at h
  split_ifs at h <;> cases h <;> dsimp only [ReadsItsRow, Instr.op] <;>
    exact ⟨(Op.row_iff_family_nn rfl).2 ⟨hf, ‹fieldNN w = _›⟩, rfl⟩

theorem decodeFamilyF_readsItsRow {w : Word} {i : Instr} (hf : fieldFamily w = 0xF#4)
    (h : decodeFamilyF w = .ok i) : ReadsItsRow w i := by
  unfold decodeFamilyF at h
  split_ifs at h <;> cases h <;> dsimp only [ReadsItsRow, Instr.op] <;>
    exact ⟨(Op.row_iff_family_nn rfl).2 ⟨hf, ‹fieldNN w = _›⟩, rfl⟩

theorem fieldFamily_eq_of_div {w : Word} {f : BitVec 4} (h : w.toNat / 4096 = f.toNat) : fieldFamily w = f :=
  BitVec.eq_of_toNat_eq ((fieldFamily_toNat w).trans h)

/-- A word that decodes is in the row of the instruction it decodes to, and its fields are the operands. -/
theorem readsItsRow_of_decodeWord {w : Word} {i : Instr} (h : decodeWord w = .ok i) : ReadsItsRow w i := by
  have hlt := w.isLt
  rw [decodeWord_family] at h
  split at h
  case h_1 hf => exact decodeFamily0_readsItsRow (fieldFamily_eq_of_div hf) h
  case h_9 hf => exact decodeFamily8_readsItsRow (fieldFamily_eq_of_div hf) h
  case h_15 hf => exact decodeFamilyE_readsItsRow (fieldFamily_eq_of_div hf) h
  case h_16 =>
    have hf : w.toNat / 4096 = 15 := by
      simp only [imp_false] at *
      omega
    exact decodeFamilyF_readsItsRow (fieldFamily_eq_of_div hf) h
  all_goals
    cases h
    dsimp only [ReadsItsRow, Instr.op]
    exact ⟨(Op.row_iff_family rfl).2 (fieldFamily_eq_of_div ‹w.toNat / 4096 = _›), rfl⟩

theorem decodeWord_eq_ok_iff {w : Word} {i : Instr} :
    decodeWord w = .ok i ↔ ∃ o : Op, w &&& o.mask = o.value ∧ o.withFieldsOf w = i := by
  constructor
  · intro h
    exact ⟨i.op, readsItsRow_of_decodeWord h⟩
  · rintro ⟨o, h, rfl⟩
    exact decodeWord_of_row h

/-! ### The operands (R82, R83) -/

theorem Op.wf_withFieldsOf (o : Op) (w : Word) : (o.withFieldsOf w).wf = true := by
  cases o with
  | drw => exact decide_eq_true (Nat.le_of_lt_succ (fieldN w).isLt)
  | _ => rfl

/-- Settles O5: the operands of the word's row are the fields, each with its bit positions as a number. -/
theorem decodedOperandsAreTheWordFields : Obligations.DecodedOperandsAreTheWordFields := by
  intro w i h
  obtain ⟨o, -, rfl⟩ := decodeWord_eq_ok_iff.1 h
  refine ⟨o.wf_withFieldsOf w, ?_⟩
  cases o with
  | cls | ret => trivial
  | jp | call | ldI | jpV0 => exact fieldNNN_toNat w
  | seImm | sneImm | ldImm | addImm | rnd => exact ⟨fieldX_val w, fieldNN_toNat w⟩
  | seReg | sneReg | ldReg | orReg | andReg | xorReg | addReg | sub | shr | subn | shl =>
    exact ⟨fieldX_val w, fieldY_val w⟩
  | drw => exact ⟨fieldX_val w, fieldY_val w, fieldN_toNat w⟩
  | skp | sknp | ldVxDt | ldVxK | ldDtVx | ldStVx | addIVx | ldFVx | ldBVx | ldMemVx | ldVxMem => exact fieldX_val w

/-! ### Reading an encoded instruction (R90) -/

open Laws in
/-- The word of an instruction is in the instruction's own row. -/
theorem encode_row (i : Instr) : encode i &&& i.op.mask = i.op.value :=
  match i with
  | .cls => EncodeRow.cls
  | .ret => EncodeRow.ret
  | .jp nnn => EncodeRow.jp nnn
  | .call nnn => EncodeRow.call nnn
  | .seImm x nn => EncodeRow.seImm x nn
  | .sneImm x nn => EncodeRow.sneImm x nn
  | .seReg x y => EncodeRow.seReg x y
  | .ldImm x nn => EncodeRow.ldImm x nn
  | .addImm x nn => EncodeRow.addImm x nn
  | .ldReg x y => EncodeRow.ldReg x y
  | .orReg x y => EncodeRow.orReg x y
  | .andReg x y => EncodeRow.andReg x y
  | .xorReg x y => EncodeRow.xorReg x y
  | .addReg x y => EncodeRow.addReg x y
  | .sub x y => EncodeRow.sub x y
  | .shr x y => EncodeRow.shr x y
  | .subn x y => EncodeRow.subn x y
  | .shl x y => EncodeRow.shl x y
  | .sneReg x y => EncodeRow.sneReg x y
  | .ldI nnn => EncodeRow.ldI nnn
  | .jpV0 nnn => EncodeRow.jpV0 nnn
  | .rnd x nn => EncodeRow.rnd x nn
  | .drw x y n => EncodeRow.drw x y n
  | .skp x => EncodeRow.skp x
  | .sknp x => EncodeRow.sknp x
  | .ldVxDt x => EncodeRow.ldVxDt x
  | .ldVxK x => EncodeRow.ldVxK x
  | .ldDtVx x => EncodeRow.ldDtVx x
  | .ldStVx x => EncodeRow.ldStVx x
  | .addIVx x => EncodeRow.addIVx x
  | .ldFVx x => EncodeRow.ldFVx x
  | .ldBVx x => EncodeRow.ldBVx x
  | .ldMemVx x => EncodeRow.ldMemVx x
  | .ldVxMem x => EncodeRow.ldVxMem x

theorem withFieldsOf_encode {i : Instr} (h : i.wf = true) : i.op.withFieldsOf (encode i) = i := by
  cases i with
  | cls | ret => rfl
  | drw x y n =>
    have hn : n < 16 := Nat.lt_succ_of_le (of_decide_eq_true h)
    simpa [Instr.op, Op.withFieldsOf, encode] using hn
  | _ => simp [Instr.op, Op.withFieldsOf, encode]

theorem decodeWord_encode {i : Instr} (h : i.wf = true) : decodeWord (encode i) = .ok i :=
  decodeWord_eq_ok_iff.2 ⟨i.op, encode_row i, withFieldsOf_encode h⟩

/-- Settles O2: the encoded word is in the instruction's row, and its fields are the operands. -/
theorem decodeEncodeRoundTrip : Obligations.DecodeEncodeRoundTrip := by
  intro i hi
  have hword := decodeWord_encode hi
  refine ⟨hword, fun rest => ?_⟩
  calc decode (encodeBytes i ++ rest)
      = (decodeWord (encode i)).map fun i => (i, rest) := decode_bytes (encode i) rest
    _ = .ok (i, rest) := by rw [hword]; rfl

/-! ### The unknown words (R87) -/

theorem decodeFamily0_eq_error_iff {w : Word} :
    decodeFamily0 w = .error (.unknown w) ↔ w.toNat % 16 ∉ [0x0, 0xE] := by
  simp only [decodeFamily0, bitVec_eq_iff_toNat, fieldN_toNat, BitVec.reduceToNat]
  split_ifs <;> simp [*]

theorem decodeFamily8_eq_error_iff {w : Word} :
    decodeFamily8 w = .error (.unknown w) ↔ w.toNat % 16 ∈ [0x8, 0x9, 0xA, 0xB, 0xC, 0xD, 0xF] := by
  simp only [decodeFamily8, bitVec_eq_iff_toNat, fieldN_toNat, BitVec.reduceToNat]
  split_ifs <;> simp [*]
  omega

theorem decodeFamilyE_eq_error_iff {w : Word} :
    decodeFamilyE w = .error (.unknown w) ↔ w.toNat % 256 ∉ [0x9E, 0xA1] := by
  simp only [decodeFamilyE, bitVec_eq_iff_toNat, fieldNN_toNat, BitVec.reduceToNat]
  split_ifs <;> simp [*]

theorem decodeFamilyF_eq_error_iff {w : Word} :
    decodeFamilyF w = .error (.unknown w) ↔
      w.toNat % 256 ∉ [0x07, 0x0A, 0x15, 0x18, 0x1E, 0x29, 0x33, 0x55, 0x65] := by
  simp only [decodeFamilyF, bitVec_eq_iff_toNat, fieldNN_toNat, BitVec.reduceToNat]
  split_ifs <;> simp [*]

/-- Settles O4, family by family: four of them have a selector, and a word of any other is an instruction. -/
theorem unknownWordsAreExactlyTheListedOnes : Obligations.UnknownWordsAreExactlyTheListedOnes := by
  intro w
  have hlt : w.toNat / 4096 < 16 := by have := w.isLt; omega
  rw [decodeWord_family, ← decodeFamily0_eq_error_iff, ← decodeFamily8_eq_error_iff, ← decodeFamilyE_eq_error_iff,
    ← decodeFamilyF_eq_error_iff]
  generalize w.toNat / 4096 = f at hlt
  interval_cases f <;> simp

/-! ### The ignored bits (R86) -/

theorem decodeFamily0_toOption_congr {w w' : Word} (h : fieldN w = fieldN w') :
    (decodeFamily0 w).toOption = (decodeFamily0 w').toOption := by
  unfold decodeFamily0
  rw [h]
  split_ifs <;> rfl

/-- The registers of a word are in its upper twelve bits. -/
theorem fieldXY_congr {w w' : Word} (h : w.toNat / 16 = w'.toNat / 16) :
    fieldX w = fieldX w' ∧ fieldY w = fieldY w' := by
  constructor <;> apply Fin.ext
  · rw [fieldX_val, fieldX_val]
    omega
  · rw [fieldY_val, fieldY_val, h]

/-- Outside the families with ignored bits, the word of a row is laid out from its own fields. -/
theorem encode_withFieldsOf {o : Op} {w : Word} (hfam : (fieldFamily w).toNat ∉ [0, 5, 9])
    (h : w &&& o.mask = o.value) : encode (o.withFieldsOf w) = w := by
  cases o with
  | cls | ret =>
    rw [((Op.row_iff_family_n rfl).1 h).1] at hfam
    exact absurd (by decide) hfam
  | seReg | sneReg =>
    rw [(Op.row_iff_family rfl).1 h] at hfam
    exact absurd (by decide) hfam
  | jp | call | ldI | jpV0 =>
    exact layoutA_of_fields ((Op.row_iff_family rfl).1 h)
  | seImm | sneImm | ldImm | addImm | rnd =>
    exact layoutXK_of_fields ((Op.row_iff_family rfl).1 h) rfl
  | drw =>
    refine layoutXYN_of_fields ((Op.row_iff_family rfl).1 h) ?_
    simp
  | ldReg | orReg | andReg | xorReg | addReg | sub | shr | subn | shl =>
    obtain ⟨hf, hn⟩ := (Op.row_iff_family_n rfl).1 h
    exact layoutXYN_of_fields hf hn
  | skp | sknp | ldVxDt | ldVxK | ldDtVx | ldStVx | addIVx | ldFVx | ldBVx | ldMemVx | ldVxMem =>
    obtain ⟨hf, hnn⟩ := (Op.row_iff_family_nn rfl).1 h
    exact layoutXK_of_fields hf hnn

/-- Settles O6: what each family with ignored bits reads, and the row's layout for the other families. -/
theorem onlyTheListedBitsAreIgnored : Obligations.OnlyTheListedBitsAreIgnored := by
  refine ⟨fun w w' hf hf' hn => ?_, fun w w' hf hd => ?_, fun w i hfam hw => ?_, by decide⟩
  · have hfield : fieldN w = fieldN w' := BitVec.eq_of_toNat_eq (by rw [fieldN_toNat, fieldN_toNat, hn])
    rw [decodeWord_family, decodeWord_family, hf, hf']
    exact decodeFamily0_toOption_congr hfield
  · have hfam : w'.toNat / 4096 = w.toNat / 4096 := by omega
    obtain ⟨hx, hy⟩ := fieldXY_congr hd
    rw [decodeWord_family, decodeWord_family, hfam, hx, hy]
    obtain hf | hf := hf <;> rw [hf] <;> exact ⟨rfl, nofun⟩
  · obtain ⟨o, hrow, rfl⟩ := decodeWord_eq_ok_iff.1 hw
    exact encode_withFieldsOf (by rwa [fieldFamily_toNat]) hrow

/-- Settles O1, by running the decoder on each word. -/
theorem sampleWordsDecode : Obligations.SampleWordsDecode := by
  unfold Obligations.SampleWordsDecode
  decide

end Sys2Proof

namespace Sys2Proof.Machine

/-! ### The opcode map (R85) -/

/-- Every operation has the row that the opcode map gives it. -/
theorem hasRow (o : Op) : HasRow o o.mask o.value := by
  intro w
  constructor
  · intro h
    exact ⟨o.withFieldsOf w, decodeWord_of_row h, o.op_withFieldsOf w⟩
  · rintro ⟨i, h, rfl⟩
    exact (readsItsRow_of_decodeWord h).1

/-- No word is in two rows: it decodes to one instruction, which has one operation. -/
theorem op_eq_of_rows {w : Word} {o o' : Op} (h : w &&& o.mask = o.value) (h' : w &&& o'.mask = o'.value) : o = o' := by
  obtain ⟨i, hi, rfl⟩ := (hasRow o w).1 h
  obtain ⟨i', hi', rfl⟩ := (hasRow o' w).1 h'
  cases hi.symm.trans hi'
  rfl

/-- Settles O3: the rows printed are those of `Op.mask` and `Op.value`. -/
theorem wordsSelectTheirTableRow : Obligations.WordsSelectTheirTableRow :=
  ⟨⟨hasRow .cls, hasRow .ret, hasRow .jp, hasRow .call, hasRow .seImm, hasRow .sneImm, hasRow .seReg, hasRow .ldImm,
      hasRow .addImm, hasRow .ldReg, hasRow .orReg, hasRow .andReg, hasRow .xorReg, hasRow .addReg, hasRow .sub,
      hasRow .shr, hasRow .subn, hasRow .shl, hasRow .sneReg, hasRow .ldI, hasRow .jpV0, hasRow .rnd, hasRow .drw,
      hasRow .skp, hasRow .sknp, hasRow .ldVxDt, hasRow .ldVxK, hasRow .ldDtVx, hasRow .ldStVx, hasRow .addIVx,
      hasRow .ldFVx, hasRow .ldBVx, hasRow .ldMemVx, hasRow .ldVxMem⟩,
    fun _ _ _ => op_eq_of_rows⟩

end Sys2Proof.Machine
end

section
/-! PROOFS. The cycle (40_cycle.md): the stages of one cycle, the timers and the tone of a safe cycle, the unknown word,
the random byte, and the jump to itself. -/

namespace Sys2Proof.Machine

/-! ### The housekeeping (R232) -/

theorem State.toneNow_iff (s : State) : s.toneNow = true ↔ s.st.toNat = 1 := by
  simp [State.toneNow, bitVec_eq_iff_toNat]

theorem State.housekeeping_dt_toNat (s : State) : s.housekeeping.dt.toNat = s.dt.toNat - 1 := countDown_toNat s.dt

theorem State.housekeeping_st_toNat (s : State) : s.housekeeping.st.toNat = s.st.toNat - 1 := countDown_toNat s.st

theorem State.keepsBut_housekeeping (s : State) : KeepsBut [.dt, .st] s s.housekeeping :=
  keepsBut_of (by simp)

theorem State.housekeeping_of_zero {s : State} (hdt : s.dt = 0) (hst : s.st = 0) : s.housekeeping = s := by
  apply State.ext <;> simp [hdt, hst, countDown]

@[simp] theorem State.endCycle_state (s : State) (o : CycleOutcome) : (s.endCycle o).state = s.housekeeping := rfl

@[simp] theorem State.endCycle_tone (s : State) (o : CycleOutcome) : (s.endCycle o).tone = s.toneNow := rfl

/-! ### An unknown word (R108) -/

theorem State.pcAdds_skipUnknown {s : State} (h : s.cfg.unknownPolicy = .advance) : PcAdds 2 s s.skipUnknown := by
  simp only [State.skipUnknown, h]
  exact pcAdds_advance_of rfl

theorem State.skipUnknown_of_stall {s : State} (h : s.cfg.unknownPolicy = .stall) : s.skipUnknown = s := by
  simp only [State.skipUnknown, h]

theorem State.keepsBut_skipUnknown (s : State) : KeepsBut [.pc] s s.skipUnknown := by
  rw [State.skipUnknown_eq]
  exact keepsBut_of (by simp)

@[simp] theorem State.skipUnknown_dt (s : State) : s.skipUnknown.dt = s.dt := by rw [State.skipUnknown_eq]

@[simp] theorem State.skipUnknown_st (s : State) : s.skipUnknown.st = s.st := by rw [State.skipUnknown_eq]

/-- Settles O11: the cycle ends with the housekeeping of the state that `UNKNOWN_POLICY` leaves. -/
theorem unknownWordIsReportedAndSkipped : Obligations.UnknownWordIsReportedAndSkipped := by
  intro s w hs hf hd
  refine ⟨_, runCycle_unknown hs hf hd, rfl, State.pcAdds_skipUnknown, fun hstall => ?_, ?_, ?_, ?_, ?_⟩
  · simp [State.skipUnknown_of_stall hstall]
  · simp [countDown_toNat]
  · simp [countDown_toNat]
  · simp [State.toneNow_iff]
  · exact keepsBut_trans (keepsBut_mono s.keepsBut_skipUnknown (by simp))
      (keepsBut_mono s.skipUnknown.keepsBut_housekeeping (by simp))

/-! ### The stages (R101, R247) -/

/-- An instruction leaves `HALT` as it was, or enters the halted state from the state it began in (R245). -/
theorem exec_halt_cases {i : Instr} {s t : State} (h : exec i s = .next t) :
    t.halt = s.halt ∨ ∃ f, t = s.raiseFatal f := by
  cases i with
  | ret =>
    obtain ⟨k, -, rfl⟩ | hf := exec_ret_cases h
    · exact .inl rfl
    · exact .inr hf
  | call nnn =>
    obtain ⟨k, -, rfl⟩ | hf := exec_call_cases h
    · exact .inl rfl
    · exact .inr hf
  | drw _ _ _ | skp _ | sknp _ | ldBVx _ | ldMemVx _ | ldVxMem _ =>
    obtain ⟨a, -, rfl⟩ | hf := State.commit_map_cases h
    · exact .inl (by simp)
    · exact .inr hf
  | seReg x y =>
    obtain ⟨-, rfl⟩ | ⟨-, rfl | rfl⟩ := exec_seReg_cases h <;> exact .inl rfl
  | ldVxK x =>
    obtain ⟨-, rfl⟩ | ⟨k, -, rfl⟩ := exec_ldVxK_cases h <;> exact .inl rfl
  | addReg x _ | sub x _ | shr x _ | subn x _ | shl x _ =>
    cases h
    exact .inl (by rw [State.writeRF_eq])
  | rnd x nn =>
    cases h
    obtain ⟨r, n, hr⟩ := s.takeRnd_snd
    exact .inl (by simp [hr])
  | _ =>
    cases h
    exact .inl rfl

/-- An instruction that halts a running block discards every write (R101, R245). -/
theorem eq_raiseFatal_of_exec {i : Instr} {s t : State} {f : Fatal} (hs : s.halt = none) (h : exec i s = .next t)
    (ht : t.halt = some f) : t = s.raiseFatal f := by
  obtain hsame | ⟨g, rfl⟩ := exec_halt_cases h
  · simp [hsame, hs] at ht
  · cases ht
    rfl

/-- Settles O9, stage by stage. -/
theorem cycleFollowsItsStages : Obligations.CycleFollowsItsStages := by
  intro s
  refine ⟨fun f hf => runCycle_halted hf, fun hs => ⟨fun f hf => runCycle_fetch_error hs hf, fun w e hf hd => ?_,
    fun w i t hf hd he => ⟨fun f ht => ?_, fun ht => ?_⟩⟩⟩
  · exact ⟨s.skipUnknown, State.pcAdds_skipUnknown, fun hstall => congrArg State.pc (State.skipUnknown_of_stall hstall),
      s.keepsBut_skipUnknown, runCycle_unknown hs hf hd⟩
  · rw [runCycle_exec hs hf hd he, State.endExec_of_halted ht, eq_raiseFatal_of_exec hs he ht]
    rfl
  · rw [runCycle_exec hs hf hd he, State.endExec_of_running ht]
    rfl

/-- Settles O8: the step is the state part of the execute stage's end. -/
theorem stepRunsTheDecodedInstruction : Obligations.StepRunsTheDecodedInstruction := by
  intro s w i t hs hf hd he
  have hstep : step s = .next t.endExec.state := step_of_runCycle (runCycle_exec hs hf hd he)
  refine ⟨fun ht => ?_, fun ht => ?_⟩
  · rw [hstep, State.endExec_of_running ht]
    rfl
  · obtain ⟨f, hf⟩ := Option.ne_none_iff_exists'.1 ht
    rw [hstep, State.endExec_of_halted hf]
    rfl

/-! ### The timers of a safe cycle (R109, R232) -/

/-- A safe cycle ends with the housekeeping of a state `u`: the one an unknown word is skipped to, or the one the
instruction answered. -/
theorem runCycle_safe_cases {s : State} {r : CycleResult} (h : runCycle s = .next r) (hr : r.outcome.isFatal = false) :
    ∃ u, r.state = u.housekeeping ∧ r.tone = u.toneNow ∧
      (s.current = none ∧ u = s.skipUnknown ∨ ∃ i, s.current = some i ∧ exec i s = .next u) := by
  obtain ⟨f, -, rfl⟩ | ⟨-, f, -, rfl⟩ | ⟨-, w, e, hf, hd, rfl⟩ | ⟨-, w, i, u, hf, hd, hu, rfl⟩ := runCycle_cases h
  · cases hr
  · cases hr
  · exact ⟨s.skipUnknown, rfl, rfl, .inl ⟨by simp [State.current, hf, hd, Except.toOption], rfl⟩⟩
  · cases ht : u.halt with
    | some f =>
      rw [State.endExec_of_halted ht] at hr
      cases hr
    | none =>
      rw [State.endExec_of_running ht]
      exact ⟨u, rfl, rfl, .inr ⟨i, State.current_eq_some.2 ⟨w, hf, hd⟩, hu⟩⟩

theorem exec_dt_of_ne {i : Instr} {s t : State} (hi : ∀ x, i ≠ .ldDtVx x) (h : exec i s = .next t) : t.dt = s.dt := by
  refine exec_keepsBut h .dt ?_
  cases i with
  | ldDtVx x => exact absurd rfl (hi x)
  | _ => simp [mem_mayChange, Part.writers, Instr.op]

theorem exec_st_of_ne {i : Instr} {s t : State} (hi : ∀ x, i ≠ .ldStVx x) (h : exec i s = .next t) : t.st = s.st := by
  refine exec_keepsBut h .st ?_
  cases i with
  | ldStVx x => exact absurd rfl (hi x)
  | _ => simp [mem_mayChange, Part.writers, Instr.op]

/-- Settles O16: before the housekeeping a timer holds what its own write put there, or else what it held. -/
theorem timersCountOncePerSafeCycle : Obligations.TimersCountOncePerSafeCycle := by
  intro s r h hr
  obtain ⟨u, hstate, htone, hu⟩ := runCycle_safe_cases h hr
  rw [hstate, htone, u.housekeeping_dt_toNat, u.housekeeping_st_toNat, u.toneNow_iff]
  obtain ⟨hcur, rfl⟩ | ⟨i, hcur, he⟩ := hu
  · simp [hcur]
  · simp only [hcur, ne_eq, Option.some.injEq]
    refine ⟨?_, fun hi => by rw [exec_dt_of_ne hi he], ?_, fun hi => by simp [exec_st_of_ne hi he]⟩
    · rintro x rfl
      cases he
      rfl
    · rintro x rfl
      cases he
      exact ⟨rfl, Iff.rfl⟩

/-! ### The random byte (R107) -/

@[simp] theorem State.writeRF_setRndIn (s : State) (o : Option Byte) (x : Reg) (r : Byte) (f : Bool) :
    (s.setRndIn o).writeRF x r f = (s.writeRF x r f).setRndIn o := by
  simp only [State.writeRF, State.setRndIn_cfg]
  cases s.cfg.flagOrder <;> rfl

theorem State.skipUnknown_setRndIn (s : State) (o : Option Byte) :
    (s.setRndIn o).skipUnknown = s.skipUnknown.setRndIn o := by
  simp only [State.skipUnknown, State.setRndIn_cfg]
  cases s.cfg.unknownPolicy <;> rfl

theorem State.endExec_setRndIn (t : State) (o : Option Byte) :
    (t.setRndIn o).endExec = { t.endExec with state := t.endExec.state.setRndIn o } := by
  simp only [State.endExec, State.setRndIn_halt]
  cases t.halt <;> rfl

theorem State.pop_setRndIn (s : State) (o : Option Byte) :
    (s.setRndIn o).pop = s.pop.map fun p => (p.1, p.2.setRndIn o) := by
  obtain hsp | ⟨k, hk⟩ := s.sp_cases
  · rw [s.pop_empty hsp, (s.setRndIn o).pop_empty hsp]
    rfl
  · rw [s.pop_of_succ k hk, (s.setRndIn o).pop_of_succ k hk]
    rfl

theorem State.push_setRndIn (s : State) (o : Option Byte) (u : Word) :
    (s.setRndIn o).push u = (s.push u).map fun t => t.setRndIn o := by
  obtain hsp | ⟨k, hk⟩ := s.sp_cases_full
  · rw [s.push_full u hsp, (s.setRndIn o).push_full u hsp]
    rfl
  · rw [s.push_of_lt u k hk, (s.setRndIn o).push_of_lt u k hk]
    rfl

theorem except_map_map {α β γ : Type} (g : β → γ) (k : α → β) (r : Except Fatal α) :
    (r.map k).map g = r.map fun a => g (k a) := by
  cases r <;> rfl

/-- A checked meaning carries the random byte along where its check does not read it and what it computes carries it. -/
theorem commit_map_setRndIn {α : Type} {s t : State} {r : Except Fatal α} {g g' : α → State} {o : Option Byte}
    (h : s.commit (r.map g) = .next t) (hg : ∀ a, g' a = (g a).setRndIn o) :
    (s.setRndIn o).commit (r.map g') = .next (t.setRndIn o) := by
  cases r with
  | ok a =>
    cases h
    exact congrArg Host.Outcome.next (hg a)
  | error f =>
    cases h
    rfl

theorem exec_seReg_of_standard {s : State} {x y : Reg} (h : s.cfg.seRegMode = .standard) :
    exec (.seReg x y) s = .next (s.skipIf (decide (s.reg x = s.reg y))) := by
  simp only [exec, execSeReg, h]

theorem exec_seReg_of_handlerOnly {s : State} {x y : Reg} (h : s.cfg.seRegMode = .handlerOnly) :
    exec (.seReg x y) s = .next (if s.reg x = s.reg y then s.advance else s) := by
  simp only [exec, execSeReg, h]

/-- An instruction other than RND does the same whatever random byte the cycle carries, and leaves that byte as it is. -/
theorem exec_setRndIn {i : Instr} {s t : State} (hi : ∀ x nn, i ≠ .rnd x nn) (o : Option Byte)
    (h : exec i s = .next t) : exec i (s.setRndIn o) = .next (t.setRndIn o) := by
  cases i with
  | rnd x nn => exact absurd rfl (hi x nn)
  | drw _ _ _ | skp _ | sknp _ | ldBVx _ | ldMemVx _ | ldVxMem _ =>
    exact commit_map_setRndIn h fun _ => rfl
  | ret =>
    simp only [exec, execRet, State.pop_setRndIn, except_map_map]
    exact commit_map_setRndIn h fun _ => rfl
  | call nnn =>
    simp only [exec, execCall, State.setRndIn_pc, State.push_setRndIn, except_map_map]
    exact commit_map_setRndIn h fun _ => rfl
  | addReg x _ | sub x _ | shr x _ | subn x _ | shl x _ =>
    cases h
    exact congrArg Host.Outcome.next (s.writeRF_setRndIn o x _ _)
  | seReg x y =>
    cases hm : s.cfg.seRegMode with
    | standard =>
      rw [exec_seReg_of_standard hm] at h
      cases h
      exact exec_seReg_of_standard (s := s.setRndIn o) hm
    | handlerOnly =>
      rw [exec_seReg_of_handlerOnly hm] at h
      cases h
      have hite := apply_ite (fun t : State => t.setRndIn o) (s.reg x = s.reg y) s.advance s
      exact (exec_seReg_of_handlerOnly (s := s.setRndIn o) hm).trans (congrArg Host.Outcome.next hite.symm)
  | ldVxK x =>
    have hkeys : (s.setRndIn o).lastPressed = s.lastPressed := rfl
    simp only [exec, execLdVxK, hkeys] at h ⊢
    cases hl : s.lastPressed with
    | some k =>
      rw [hl] at h
      cases h
      rfl
    | none =>
      rw [hl] at h
      cases h
      rfl
  | _ =>
    cases h
    rfl

/-- A cycle whose instruction is not RND gives the same result whatever random byte it carries, and leaves that byte as
it is. -/
theorem runCycle_setRndIn {s : State} {r : CycleResult} (hs : ∀ x nn, s.current ≠ some (.rnd x nn)) (o : Option Byte)
    (h : runCycle s = .next r) : runCycle (s.setRndIn o) = .next { r with state := r.state.setRndIn o } := by
  obtain ⟨f, hh, rfl⟩ | ⟨hh, f, hf, rfl⟩ | ⟨hh, w, e, hf, hd, rfl⟩ | ⟨hh, w, i, t, hf, hd, ht, rfl⟩ := runCycle_cases h
  · exact runCycle_halted (s := s.setRndIn o) hh
  · exact runCycle_fetch_error (s := s.setRndIn o) hh hf
  · rw [runCycle_unknown (s := s.setRndIn o) hh hf hd, State.skipUnknown_setRndIn]
    rfl
  · have hi : ∀ x nn, i ≠ .rnd x nn := by
      rintro x nn rfl
      exact hs x nn (State.current_eq_some.2 ⟨w, hf, hd⟩)
    rw [runCycle_exec (s := s.setRndIn o) hh hf hd (exec_setRndIn hi o ht), State.endExec_setRndIn]

theorem runCycle_answers (s : State) : ∃ r, runCycle s = .next r := by
  cases hh : s.halt with
  | some f => exact ⟨_, runCycle_halted hh⟩
  | none =>
    cases hf : s.fetch with
    | error f => exact ⟨_, runCycle_fetch_error hh hf⟩
    | ok w =>
      cases hd : decodeWord w with
      | error e => exact ⟨_, runCycle_unknown hh hf hd⟩
      | ok i =>
        obtain ⟨t, ht⟩ := exec_answers i s
        exact ⟨_, runCycle_exec hh hf hd ht⟩

/-- Settles O15: the cycle with any byte is the cycle with none, which takes the byte back out at its end. -/
theorem randomByteReachesOnlyRnd : Obligations.RandomByteReachesOnlyRnd := by
  intro s b c hs
  obtain ⟨r, hr⟩ := runCycle_answers s
  have hcycle (a : Byte) : s.cycle a = .next { r with state := r.state.setRndIn none } := by
    simp only [State.cycle, runCycle_setRndIn hs (some a) hr]
    rfl
  rw [hcycle, hcycle]

/-! ### A jump to itself (R112) -/

theorem exec_jp_self {s : State} {nnn : Addr12} (h : nnn.toNat = s.pc.toNat) : exec (.jp nnn) s = .next s := by
  have hpc : addrOf nnn = s.pc := BitVec.eq_of_toNat_eq (by rw [addrOf_toNat, h])
  simp only [exec, execJp, hpc]
  rfl

/-- Settles O19: the jump itself changes nothing, so the step is the housekeeping alone. -/
theorem jumpToItselfIsASteadyState : Obligations.JumpToItselfIsASteadyState := by
  intro s nnn hs hcur hself
  have hstep : step s = .next s.housekeeping := step_of_current hs hcur (exec_jp_self hself) hs
  refine ⟨⟨_, hstep, s.keepsBut_housekeeping, s.housekeeping_dt_toNat, s.housekeeping_st_toNat⟩, fun hdt hst => ?_⟩
  rw [hstep, State.housekeeping_of_zero hdt hst]

end Sys2Proof.Machine
end

section
/-! PROOFS. Control flow (41_control_flow.md): one RET and one CALL, the jumps and the register skips, and the round trip
of calls and returns. -/

namespace Sys2Proof.Machine

/-! ### One RET and one CALL (R31, R130, R132) -/

theorem halts_ret_of_empty {s : State} (h : s.sp.val = 0) : Halts .ret s (.stackUnderflow s.pc) := by
  simp only [Halts, exec, execRet, s.pop_empty h, except_map_error, State.commit_error]

theorem exec_ret_of_entry {s : State} {k : Fin 16} (h : s.sp.val = k.val + 1) :
    exec .ret s = .next ({ s with sp := k.castSucc }.setPc (s.stack[k] + 2)) := by
  simp only [exec, execRet, s.pop_of_succ k h, except_map_ok, State.commit_ok]

theorem halts_call_of_full (nnn : Addr12) {s : State} (h : s.sp.val = 16) :
    Halts (.call nnn) s (.stackOverflow s.pc) := by
  simp only [Halts, exec, execCall, s.push_full s.pc h, except_map_error, State.commit_error]

theorem exec_call_of_room (nnn : Addr12) {s : State} {k : Fin 16} (h : s.sp.val = k.val) :
    exec (.call nnn) s =
      .next ({ s with stack := s.stack.set k.val s.pc k.isLt, sp := k.succ }.setPc (addrOf nnn)) := by
  simp only [exec, execCall, s.push_of_lt s.pc k h, except_map_ok, State.commit_ok]

/-- Settles O31, on an empty stack and on one with an entry. -/
theorem returnPopsAndAddsTwo : Obligations.ReturnPopsAndAddsTwo := by
  refine ⟨hasRow .ret, rfl, fun s => ⟨halts_ret_of_empty, fun k hk => ?_⟩⟩
  exact ⟨_, exec_ret_of_entry hk, rfl, by simp [BitVec.toNat_add], keepsBut_of (by simp)⟩

theorem stack_set_getElem_of_ne (v : Vector Word 16) (u : Word) {j k : Fin 16} (h : j ≠ k) :
    (v.set k.val u k.isLt)[j] = v[j] :=
  Vector.getElem_set_ne k.isLt j.isLt (Fin.val_ne_of_ne h.symm)

/-- Settles O32, on a full stack and on one with room. -/
theorem callPushesItsOwnAddress : Obligations.CallPushesItsOwnAddress := by
  refine ⟨hasRow .call, fun nnn s => ⟨halts_call_of_full nnn, fun k hk => ?_⟩⟩
  exact ⟨_, exec_call_of_room nnn hk, rfl, Vector.getElem_set_self k.isLt, fun j => stack_set_getElem_of_ne _ _,
    addrOf_toNat nnn, keepsBut_of (by simp)⟩

/-! ### The jumps (R131, R137) -/

theorem State.offsetTarget_toNat (s : State) (nnn : Addr12) :
    (s.offsetTarget nnn).toNat = (nnn.toNat + (s.reg 0).toNat) % 65536 :=
  BitVec.toNat_ofNat ..

theorem State.keepsBut_setPc (s : State) (a : Word) : KeepsBut [.pc] s (s.setPc a) :=
  keepsBut_of (by simp)

/-- Settles O33: both jumps are a write of `PC`. -/
theorem jumpsSetTheProgramCounter : Obligations.JumpsSetTheProgramCounter :=
  ⟨hasRow .jp, hasRow .jpV0, fun nnn s =>
    ⟨⟨_, rfl, addrOf_toNat nnn, s.keepsBut_setPc _⟩, ⟨_, rfl, s.offsetTarget_toNat nnn, s.keepsBut_setPc _⟩⟩⟩

/-! ### The register skips (R133 to R136) -/

/-- Settles O34: each is a conditional skip on its own comparison. -/
theorem skipsCompareRegisters : Obligations.SkipsCompareRegisters :=
  ⟨hasRow .seImm, hasRow .sneImm, hasRow .sneReg,
    fun x nn => ⟨skipsWhen_of (fun s => decide (s.reg x = nn)) (fun _ => rfl) fun _ => decide_eq_true_iff,
      skipsWhen_of (fun s => decide (s.reg x ≠ nn)) (fun _ => rfl) fun _ => decide_eq_true_iff⟩,
    fun x y => skipsWhen_of (fun s => decide (s.reg x ≠ s.reg y)) (fun _ => rfl) fun _ => decide_eq_true_iff⟩

/-- Settles O35, mode by mode. -/
theorem skipIfRegistersEqualInBothModes : Obligations.SkipIfRegistersEqualInBothModes := by
  refine ⟨hasRow .seReg, fun x y s => ?_⟩
  cases hm : s.cfg.seRegMode with
  | standard =>
    refine ⟨_, exec_seReg_of_standard hm, s.keepsBut_setPc _, fun _ heq => ?_, fun _ hne => ?_, nofun, nofun⟩
    · rw [decide_eq_true heq]
      exact pcAdds_skipIf_true s
    · rw [decide_eq_false hne]
      exact pcAdds_skipIf_false s
  | handlerOnly =>
    refine ⟨_, exec_seReg_of_handlerOnly hm, ?_, nofun, nofun, fun _ heq => ?_, fun _ hne => ?_⟩
    · split
      · exact s.keepsBut_setPc _
      · exact keepsBut_refl _ s
    · rw [if_pos heq]
      exact pcAdds_advance_of rfl
    · rw [if_neg hne]

/-! ### Sequences of calls and of returns (R139) -/

theorem callAll_cons_of_exec {a : Addr12} {as : List Addr12} {s t : State} (h : exec (.call a) s = .next t) :
    callAll (a :: as) s = callAll as t := by
  simp only [callAll, h]

theorem callAll_append_of_callAll {as : List Addr12} (bs : List Addr12) {s t : State} (h : callAll as s = .next t) :
    callAll (as ++ bs) s = callAll bs t := by
  induction as generalizing s with
  | nil =>
    cases h
    rfl
  | cons a as ih =>
    obtain ⟨u, hu⟩ := exec_answers (.call a) s
    rw [callAll_cons_of_exec hu] at h
    rw [List.cons_append, callAll_cons_of_exec hu, ih h]

theorem retAll_succ_of_exec {n : Nat} {s t : State} (h : exec .ret s = .next t) : retAll (n + 1) s = retAll n t := by
  simp only [retAll, h]

/-- One more RET after `n` of them. -/
theorem retAll_succ_of_retAll {n : Nat} {s t u : State} (h : retAll n s = .next t) (hret : exec .ret t = .next u) :
    retAll (n + 1) s = .next u := by
  induction n generalizing s with
  | zero =>
    cases h
    exact retAll_succ_of_exec hret
  | succ n ih =>
    obtain ⟨r, hr⟩ := exec_answers .ret s
    rw [retAll_succ_of_exec hr] at h ⊢
    exact ih h

/-- The stack as far as it is in use, and `HALT`, are the same in both states. The slots from `SP` up are left out: a RET
leaves in its slot what the CALL put there (R31). -/
structure SameEntries (s t : State) : Prop where
  sp : t.sp = s.sp
  entry : ∀ k : Fin 16, k.val < s.sp.val → t.stack[k] = s.stack[k]
  halt : t.halt = s.halt

/-- A RET from the stack that a CALL left, whatever else has happened since, undoes the CALL and goes on after it. -/
theorem exec_ret_undoes_call {s t u : State} {nnn : Addr12} (hroom : s.sp.val < 16)
    (hcall : exec (.call nnn) s = .next t) (hu : SameEntries t u) :
    ∃ r, exec .ret u = .next r ∧ SameEntries s r ∧ r.pc = s.pc + 2 := by
  obtain ⟨k, hk⟩ : ∃ k : Fin 16, s.sp.val = k.val := ⟨⟨s.sp.val, hroom⟩, rfl⟩
  rw [exec_call_of_room nnn hk] at hcall
  cases hcall
  obtain ⟨hsp, hentry, hhalt⟩ := hu
  have hpopped : u.stack[k] = s.pc := (hentry k k.val.lt_succ_self).trans (Vector.getElem_set_self k.isLt)
  refine ⟨_, exec_ret_of_entry (congrArg Fin.val hsp), ⟨Fin.ext hk.symm, fun j hj => ?_, hhalt⟩, ?_⟩
  · have hjk : j.val < k.val := hk ▸ hj
    exact (hentry j (hjk.trans k.val.lt_succ_self)).trans (stack_set_getElem_of_ne _ _ (Fin.ne_of_lt hjk))
  · exact congrArg (· + 2) hpopped

theorem exec_call_sp_of_lt (a : Addr12) {s : State} (h : s.sp.val < 16) :
    ∃ t, exec (.call a) s = .next t ∧ t.sp.val = s.sp.val + 1 ∧ t.halt = s.halt :=
  ⟨_, exec_call_of_room a (k := ⟨s.sp.val, h⟩) rfl, rfl, rfl⟩

theorem callAll_of_room {as : List Addr12} {s : State} (hroom : s.sp.val + as.length ≤ 16) :
    ∃ t, callAll as s = .next t ∧ t.sp.val = s.sp.val + as.length ∧ t.halt = s.halt := by
  induction as generalizing s with
  | nil => exact ⟨s, rfl, rfl, rfl⟩
  | cons a as ih =>
    rw [List.length_cons] at hroom ⊢
    obtain ⟨t, hcall, hsp, hhalt⟩ := exec_call_sp_of_lt a (s := s) (by omega)
    obtain ⟨u, hu, hspu, hhaltu⟩ := ih (s := t) (by omega)
    exact ⟨u, (callAll_cons_of_exec hcall).trans hu, by omega, hhaltu.trans hhalt⟩

/-- As many RETs as there were CALLs empty the stack of what the CALLs put there, and the last RET goes on after the
first CALL. -/
theorem retAll_undoes_callAll {as : List Addr12} {s t : State} (hroom : s.sp.val + as.length ≤ 16)
    (hcalls : callAll as s = .next t) :
    ∃ u, retAll as.length t = .next u ∧ SameEntries s u ∧ (as ≠ [] → u.pc = s.pc + 2) := by
  induction as generalizing s with
  | nil =>
    cases hcalls
    exact ⟨t, rfl, ⟨rfl, fun _ _ => rfl, rfl⟩, fun h => absurd rfl h⟩
  | cons a as ih =>
    rw [List.length_cons] at hroom ⊢
    obtain ⟨s', hcall, hsp, -⟩ := exec_call_sp_of_lt a (s := s) (by omega)
    rw [callAll_cons_of_exec hcall] at hcalls
    obtain ⟨u, hrets, hsame, -⟩ := ih (by omega) hcalls
    obtain ⟨r, hret, hr, hpc⟩ := exec_ret_undoes_call (by omega) hcall hsame
    exact ⟨r, retAll_succ_of_retAll hrets hret, hr, fun _ => hpc⟩

/-- Settles O36: the calls before the one returned to leave the state `s₁`, and the rest is a round trip from there. -/
theorem callsAndReturnsRoundTrip : Obligations.CallsAndReturnsRoundTrip := by
  refine ⟨fun as bs s hroom hbs => ?_, fun nnn s => halts_call_of_full nnn⟩
  rw [List.length_append] at hroom ⊢
  obtain ⟨s₁, h₁, hsp₁, hhalt₁⟩ := callAll_of_room (as := as) (s := s) (by omega)
  have hroom₁ : s₁.sp.val + bs.length ≤ 16 := by omega
  obtain ⟨t, ht, hspt, -⟩ := callAll_of_room hroom₁
  obtain ⟨u, hu, ⟨hsp, -, hhalt⟩, hpc⟩ := retAll_undoes_callAll hroom₁ ht
  exact ⟨s₁, t, u, h₁, hsp₁, (callAll_append_of_callAll bs h₁).trans ht, by omega, hu, hsp,
    by simp [hpc hbs, BitVec.toNat_add], hhalt.trans hhalt₁⟩

end Sys2Proof.Machine
end

section
/-! PROOFS. Register loads and the ALU (42_alu.md): the flags as numbers, the register loads, the arithmetic and the
shifts, and the random byte, at the level of `exec` and in a cycle. -/

namespace Sys2Proof.Machine

/-! ### Loads, moves and logic (R151 to R156) -/

/-- Settles O24: one register write, of the immediate byte. -/
theorem loadImmediate : Obligations.LoadImmediate :=
  ⟨hasRow .ldImm, fun _ nn => writesRegister_of (fun _ => nn) (fun _ => rfl) fun _ => rfl⟩

/-- Settles O25: one register write, of the sum in 8 bits. -/
theorem addImmediateWrapsWithoutFlag : Obligations.AddImmediateWrapsWithoutFlag :=
  ⟨hasRow .addImm, fun x nn =>
    writesRegister_of (fun s => s.reg x + nn) (fun _ => rfl) fun _ => congrArg Nat.cast (BitVec.toNat_add _ _)⟩

/-- Settles O26: each is one register write, and the bitwise operations on bytes are those on their numbers. -/
theorem moveAndLogicWriteNoFlag : Obligations.MoveAndLogicWriteNoFlag :=
  ⟨hasRow .ldReg, hasRow .orReg, hasRow .andReg, hasRow .xorReg, fun x y =>
    ⟨writesRegister_of (fun s => s.reg y) (fun _ => rfl) fun _ => rfl,
      writesRegister_of (fun s => s.reg x ||| s.reg y) (fun _ => rfl) fun _ => congrArg Nat.cast (BitVec.toNat_or _ _),
      writesRegister_of (fun s => s.reg x &&& s.reg y) (fun _ => rfl) fun _ => congrArg Nat.cast (BitVec.toNat_and _ _),
      writesRegister_of (fun s => s.reg x ^^^ s.reg y) (fun _ => rfl) fun _ => congrArg Nat.cast (BitVec.toNat_xor _ _)⟩⟩

/-! ### The flags as numbers (R159 to R163) -/

theorem flagByte_toNat (f : Bool) : (flagByte f).toNat = f.toNat := by cases f <;> rfl

theorem flagByte_carryOut_toNat (a b : Byte) :
    ((flagByte (carryOut a b)).toNat : Int) = if a.toNat + b.toNat > 255 then 1 else 0 := by
  by_cases h : a.toNat + b.toNat > 255 <;> simp [flagByte_toNat, carryOut, h]

theorem flagByte_notBorrow_toNat (a b : Byte) :
    ((flagByte (notBorrow a b)).toNat : Int) = if b.toNat > a.toNat then 0 else 1 := by
  by_cases h : b.toNat > a.toNat <;> simp [flagByte_toNat, notBorrow, h]

theorem flagByte_lowBit_toNat (b : Byte) : (flagByte (lowBit b)).toNat = b.toNat % 2 := by
  rw [flagByte_toNat, lowBit, BitVec.getLsbD, Nat.toNat_testBit, pow_zero, Nat.div_one]

/-- A byte has no bit above the highest, so dividing by 128 leaves that bit alone. -/
theorem flagByte_highBit_toNat (b : Byte) : (flagByte (highBit b)).toNat = b.toNat / 128 := by
  rw [flagByte_toNat, highBit, BitVec.getLsbD, Nat.toNat_testBit]
  have := b.isLt
  omega

/-! ### Arithmetic and shifts (R159 to R163) -/

/-- Settles O27: the result-and-flag write of the sum and its carry. -/
theorem addRegisterSetsCarry : Obligations.AddRegisterSetsCarry :=
  ⟨hasRow .addReg, fun x y =>
    writesResultAndFlag_of (fun s => s.reg x + s.reg y) (fun s => carryOut (s.reg x) (s.reg y)) (fun _ => rfl)
      (fun _ => congrArg Nat.cast (BitVec.toNat_add _ _)) fun _ => flagByte_carryOut_toNat _ _⟩

/-- The difference of two bytes is that of their numbers, reduced to 0 to 255. -/
theorem byte_sub_toNat (a b : Byte) : ((a - b).toNat : Int) = ((a.toNat : Int) - b.toNat) % 256 := by
  have := b.isLt
  rw [BitVec.toNat_sub]
  omega

/-- Settles O28: SUBN is SUB with the operands exchanged. -/
theorem subtractionsSetNotBorrow : Obligations.SubtractionsSetNotBorrow :=
  ⟨hasRow .sub, hasRow .subn, fun x y =>
    ⟨writesResultAndFlag_of (fun s => s.reg x - s.reg y) (fun s => notBorrow (s.reg x) (s.reg y)) (fun _ => rfl)
        (fun _ => byte_sub_toNat _ _) fun _ => flagByte_notBorrow_toNat _ _,
      writesResultAndFlag_of (fun s => s.reg y - s.reg x) (fun s => notBorrow (s.reg y) (s.reg x)) (fun _ => rfl)
        (fun _ => byte_sub_toNat _ _) fun _ => flagByte_notBorrow_toNat _ _⟩⟩

theorem byte_shiftRight_one_toNat (b : Byte) : (b >>> 1).toNat = b.toNat / 2 := by
  rw [BitVec.toNat_ushiftRight, Nat.shiftRight_one]

theorem byte_shiftLeft_one_toNat (b : Byte) : (b <<< 1).toNat = 2 * b.toNat % 256 := by
  rw [BitVec.toNat_shiftLeft, Nat.shiftLeft_eq, pow_one, mul_comm]

/-- Settles O29: the result-and-flag write of `V[y]` shifted and the bit that the shift drops. -/
theorem shiftsReadRegisterY : Obligations.ShiftsReadRegisterY :=
  ⟨hasRow .shr, hasRow .shl, fun _ y =>
    ⟨writesResultAndFlag_of (fun s => s.reg y >>> 1) (fun s => lowBit (s.reg y)) (fun _ => rfl)
        (fun _ => congrArg Nat.cast (byte_shiftRight_one_toNat _)) fun _ => congrArg Nat.cast (flagByte_lowBit_toNat _),
      writesResultAndFlag_of (fun s => s.reg y <<< 1) (fun s => highBit (s.reg y)) (fun _ => rfl)
        (fun _ => congrArg Nat.cast (byte_shiftLeft_one_toNat _)) fun _ => congrArg Nat.cast (flagByte_highBit_toNat _)⟩⟩

/-! ### The random byte (R170) -/

/-- RND writes the masked byte to `V[x]` and advances; nothing else changes but the model's own random-byte fields. -/
theorem exec_rnd_effect (x : Reg) (nn : Byte) (s : State) :
    ∃ t, exec (.rnd x nn) s = .next t ∧ t.reg x = s.rndIn.getD (Config.rndByte s.rndCount) &&& nn ∧ PcAdds 2 s t ∧
      KeepsRegsBut [x] s t ∧ KeepsBut [.regs, .pc, .random] s t := by
  obtain ⟨r, n, hr⟩ := s.takeRnd_snd
  exact ⟨_, rfl, by simp [s.takeRnd_fst], pcAdds_advance_of s.takeRnd_snd_pc,
    keepsRegsBut_advance_setReg s.takeRnd_snd_v x _, keepsBut_of (by simp [hr])⟩

/-- Settles O30, on a byte that the cycle carries and on the free one. -/
theorem randomByteIsMasked : Obligations.RandomByteIsMasked := by
  refine ⟨hasRow .rnd, fun x nn s => ?_⟩
  obtain ⟨t, ht, hreg, hpc, hregs, hframe⟩ := exec_rnd_effect x nn s
  refine ⟨t, ht, fun b hb => ?_, fun hnone => ?_, fun hnn => ?_, hpc, hregs, hframe⟩
  · rw [hreg, hb, Option.getD_some, BitVec.toNat_and]
  · rw [hreg, hnone, Option.getD_none, BitVec.toNat_and]
  · rw [hreg, hnn]
    exact BitVec.and_zero

/-- A running block's cycle with the byte `b` is the meaning of its current instruction in the state that holds that
byte, then the housekeeping, where that did not halt (R101, R107). -/
theorem State.cycle_of_current {s t : State} {b : Byte} {i : Instr} (hs : s.halt = none) (hi : s.current = some i)
    (h : exec i (s.setRndIn (some b)) = .next t) (ht : t.halt = none) :
    s.cycle b = .next { state := t.housekeeping.setRndIn none, outcome := .ok, tone := t.toneNow } := by
  obtain ⟨w, hf, hd⟩ := State.current_eq_some.1 hi
  simp only [State.cycle, runCycle_exec (s := s.setRndIn (some b)) hs hf hd h, State.endExec_of_running ht]
  rfl

theorem State.keepsBut_setRndIn (s : State) (o : Option Byte) : KeepsBut [.random] s (s.setRndIn o) :=
  keepsBut_of (by simp)

/-- Settles O54: the cycle gives the byte, executes RND, counts the timers down and clears the byte; each change has its
own frame. -/
theorem cycleSuppliesTheRandomByte : Obligations.CycleSuppliesTheRandomByte := by
  refine ⟨hasRow .rnd, fun s b x nn hs hcur => ?_⟩
  obtain ⟨t, ht, hreg, hpc, hregs, hframe⟩ := exec_rnd_effect x nn (s.setRndIn (some b))
  have hhalt : t.halt = none := (hframe .halt (by simp)).trans hs
  refine ⟨_, State.cycle_of_current hs hcur ht hhalt, rfl, ?_, hpc, hregs, ?_⟩
  · exact (congrArg BitVec.toNat hreg).trans (BitVec.toNat_and b nn)
  · have hgive := keepsBut_mono (s.keepsBut_setRndIn (some b)) (qs := [.regs, .pc, .dt, .st, .random]) (by simp)
    have hexec := keepsBut_trans hgive (keepsBut_mono hframe (by simp))
    have hcount := keepsBut_trans hexec (keepsBut_mono t.keepsBut_housekeeping (by simp))
    exact keepsBut_trans hcount (keepsBut_mono (t.housekeeping.keepsBut_setRndIn none) (by simp))

end Sys2Proof.Machine
end

section
/-! PROOFS. The index register and memory transfers (43_index_memory.md): the values written to `I`, the digits stored, and
the register ranges stored and loaded, on both sides of the bounds check. -/

namespace Sys2Proof.Machine

/-! ### Writes of `I` (R180 to R182) -/

theorem State.indexSum_toNat (s : State) (x : Reg) :
    (s.indexSum x).toNat = (s.i.toNat + (s.reg x).toNat) % 4096 := by
  simp only [State.indexSum, BitVec.toNat_ofNat]
  omega

/-- Settles O37: each is one write of `I`, of the address field and of the reduced sum. -/
theorem indexLoadsAndAdds : Obligations.IndexLoadsAndAdds :=
  ⟨hasRow .ldI, hasRow .addIVx, fun nnn => writesIndex_of (fun _ => addrOf nnn) (fun _ => rfl) fun _ => addrOf_toNat nnn,
    fun x => writesIndex_of (fun s => s.indexSum x) (fun _ => rfl) fun s => s.indexSum_toNat x⟩

theorem State.fontAddr_toNat_of_mod5 {s : State} (x : Reg) (h : s.cfg.fontAddrMode = .mod5) :
    (s.fontAddr x).toNat = (s.reg x).toNat % 5 := by
  simp only [State.fontAddr, h, BitVec.toNat_ofNat]
  omega

/-- The last glyph starts at 75, so 16 bits hold the address. -/
theorem State.fontAddr_toNat_of_glyph {s : State} (x : Reg) (h : s.cfg.fontAddrMode = .glyph) :
    (s.fontAddr x).toNat = 0 + (s.reg x).toNat % 16 * 5 := by
  simp only [State.fontAddr, h, BitVec.toNat_ofNat, Params.fontBase]
  omega

/-- Settles O38: one write of `I`, of the font address in either mode. -/
theorem fontAddressInBothModes : Obligations.FontAddressInBothModes := by
  refine ⟨hasRow .ldFVx, fun x => writesIndex_of (fun s => s.fontAddr x) (fun _ => rfl) fun s => ?_⟩
  cases h : s.cfg.fontAddrMode with
  | mod5 => exact State.fontAddr_toNat_of_mod5 x h
  | glyph => exact State.fontAddr_toNat_of_glyph x h

/-! ### The bounds check of a range (R56, R245) -/

/-- A meaning whose range is inside memory answers what it computes. -/
theorem State.commit_checkRange_inside {s : State} {a n : Nat} (g : Unit → State) (h : a + n ≤ s.cfg.memSize) :
    s.commit ((s.checkRange a n).map g) = .next (g ()) := by
  rw [State.checkRange_eq, if_pos (.inr h), except_map_ok, State.commit_ok]

/-- A meaning whose range has a byte outside memory halts with the lowest such address, whatever it would have computed. -/
theorem State.commit_checkRange_outside {s : State} {a n : Nat} (g : Unit → State) (h : s.cfg.memSize ≤ a + n) :
    s.commit ((s.checkRange a (n + 1)).map g) =
      .next { s with halt := some (.memoryBounds (max a s.cfg.memSize)) } := by
  rw [State.checkRange_eq, if_neg (by omega), except_map_error, State.commit_error]

/-! ### Decimal digits (R183) -/

theorem decimalDigits_units (u : Byte) (h : 2 < (decimalDigits u).length) :
    (decimalDigits u)[2].toNat = u.toNat % 10 := by
  simp only [decimalDigits, List.getElem_cons_succ, List.getElem_cons_zero, BitVec.toNat_ofNat]
  omega

/-- Settles O39: the three bytes stored are the digits, in their order. -/
theorem decimalDigitsAreStored : Obligations.DecimalDigitsAreStored := by
  refine ⟨hasRow .ldBVx, fun x s => ⟨fun hfit => ?_, fun hout => State.commit_checkRange_outside _ hout⟩⟩
  have hdigit := s.peek_pokes_add s.i.toNat (decimalDigits (s.reg x))
  have hlen := decimalDigits_length (s.reg x)
  refine ⟨_, exec_ldBVx_of_fits x hfit, ?_, ?_, ?_, s.keepsBytesBut_pokes _ (decimalDigits (s.reg x)),
    pcAdds_advance_of rfl, keepsBut_of (by simp)⟩
  · exact (congrArg BitVec.toNat (hdigit 0 (by omega))).trans (decimalDigits_hundreds _ _)
  · exact (congrArg BitVec.toNat (hdigit 1 (by omega))).trans (decimalDigits_tens _ _)
  · exact (congrArg BitVec.toNat (hdigit 2 (by omega))).trans (decimalDigits_units _ _)

/-! ### Register ranges (R184 to R186) -/

theorem State.rangeBase_of_preincrement {s : State} (h : s.cfg.regRangeMode = .preincrement) :
    s.rangeBase = s.i.toNat + 1 := by
  simp only [State.rangeBase, h]

theorem State.rangeBase_of_standard {s : State} (h : s.cfg.regRangeMode = .standard) : s.rangeBase = s.i.toNat := by
  simp only [State.rangeBase, h]

theorem State.indexAfterRange_toNat (s : State) (x : Reg) :
    (s.indexAfterRange x).toNat = (s.i.toNat + x.val + 1) % 65536 :=
  BitVec.toNat_ofNat ..

theorem State.peek_pokes_regsUpTo (s : State) (a : Nat) {x j : Reg} (h : j ≤ x) :
    (s.pokes a (s.regsUpTo x)).peek (a + j.val) = s.reg j := by
  have hj : j.val < (s.regsUpTo x).length := by
    rw [State.regsUpTo_length]
    exact Nat.lt_succ_of_le h
  rw [State.peek_pokes_add s a _ _ hj, State.regsUpTo_getElem s h]

/-- Settles O40: the bytes stored are the registers, in their order. -/
theorem registersAreStored : Obligations.RegistersAreStored := by
  refine ⟨hasRow .ldMemVx, fun x s => ⟨State.rangeBase_of_preincrement, State.rangeBase_of_standard, fun hfit => ?_,
    fun hout => State.commit_checkRange_outside _ hout⟩⟩
  have hbytes := s.keepsBytesBut_pokes s.rangeBase (s.regsUpTo x)
  rw [State.regsUpTo_length] at hbytes
  exact ⟨_, exec_ldMemVx_of_fits x hfit, fun j hj => s.peek_pokes_regsUpTo s.rangeBase hj, hbytes,
    s.indexAfterRange_toNat x, pcAdds_advance_of rfl, keepsBut_of (by simp)⟩

theorem exec_ldVxMem_of_fits {s : State} (x : Reg) (h : s.rangeBase + (x.val + 1) ≤ s.cfg.memSize) :
    exec (.ldVxMem x) s = .next ((s.loadRegs x s.rangeBase).setIndex (s.indexAfterRange x)).advance :=
  State.commit_checkRange_inside _ h

theorem State.reg_loadRegs_of_le (s : State) (a : Nat) {x j : Reg} (h : j ≤ x) :
    (s.loadRegs x a).reg j = s.peek (a + j.val) := by
  rw [State.reg_loadRegs, if_pos h]

theorem State.reg_loadRegs_of_lt (s : State) (a : Nat) {x j : Reg} (h : x < j) : (s.loadRegs x a).reg j = s.reg j := by
  rw [State.reg_loadRegs, if_neg (not_le.2 h)]

/-- Settles O41: the registers up to `V[x]` are loaded, in their order. -/
theorem registersAreLoaded : Obligations.RegistersAreLoaded := by
  refine ⟨hasRow .ldVxMem, fun x s => ⟨State.rangeBase_of_preincrement, State.rangeBase_of_standard, fun hfit => ?_,
    fun hout => State.commit_checkRange_outside _ hout⟩⟩
  refine ⟨_, exec_ldVxMem_of_fits x hfit, fun j hj => ?_, fun j hj => ?_, s.indexAfterRange_toNat x,
    pcAdds_advance_of (by simp), keepsBut_of (by simp)⟩
  · rw [State.reg_advance, State.reg_setIndex, State.reg_loadRegs_of_le s _ hj]
  · rw [State.reg_advance, State.reg_setIndex, State.reg_loadRegs_of_lt s _ hj]

theorem State.rangeBase_of_fields {s u : State} (hcfg : u.cfg = s.cfg) (hi : u.i = s.i) : u.rangeBase = s.rangeBase := by
  simp only [State.rangeBase, hcfg, hi]

/-- Settles O42: a store that did not halt was inside memory, so the load, which has the same range, is too, and each byte
it reads is the register stored there. -/
theorem storeThenLoadGivesRegistersBack : Obligations.StoreThenLoadGivesRegistersBack := by
  intro x s t u _ hstore ht hmem hcfg hi hu
  obtain ⟨_, hcheck, rfl⟩ := State.commit_map_running hstore ht
  have hfit := (State.checkRange_eq_ok_iff.1 hcheck).resolve_left (by omega)
  have hbase : u.rangeBase = s.rangeBase := State.rangeBase_of_fields hcfg hi
  have hload := exec_ldVxMem_of_fits (s := u) x (by rw [hbase, hcfg]; exact hfit)
  refine ⟨_, hload, by simp [hu], fun j hj => ?_⟩
  rw [State.reg_advance, State.reg_setIndex]
  calc (u.loadRegs x u.rangeBase).reg j
    _ = u.peek (s.rangeBase + j.val) := by rw [State.reg_loadRegs_of_le u _ hj, hbase]
    _ = (s.pokes s.rangeBase (s.regsUpTo x)).peek (s.rangeBase + j.val) := State.peek_of_mem hmem hcfg _
    _ = s.reg j := s.peek_pokes_regsUpTo s.rangeBase hj

end Sys2Proof.Machine
end

section
/-! PROOFS. The display (44_display.md): what one draw does to a cell and to the flag, drawing the same sprite twice,
and the wrap at the right edge. -/

namespace Sys2Proof.Machine

/-! ### Clearing the screen (R200) -/

/-- Settles O44: the only writes are the clear display and `PC`. -/
theorem clearScreenClearsEveryCell : Obligations.ClearScreenClearsEveryCell :=
  ⟨hasRow .cls, rfl, fun _ => ⟨_, rfl, Display.get_clear, pcAdds_advance_of rfl, keepsBut_of (by simp)⟩⟩

/-! ### One draw (R201 to R203) -/

/-- The state after the `n`-row sprite at `I` is drawn at the origin in `V[x]` and `V[y]`. -/
def State.drawn (s : State) (x y : Reg) (n : Nat) : State :=
  let d := drawCells s.disp (s.spriteCells (s.reg x) (s.reg y) n)
  ((s.setDisp d.1).setReg flagReg (flagByte d.2)).advance

/-- DRW draws where every row is in memory; with no row it does so from any `I` (R203). -/
theorem exec_drw_of_fits {s : State} (x y : Reg) {n : Nat} (h : n = 0 ∨ s.i.toNat + n ≤ s.cfg.memSize) :
    exec (.drw x y n) s = .next (s.drawn x y n) := by
  simp only [exec, execDrw, State.drawn, State.checkRange_eq_ok_iff.2 h, except_map_ok, State.commit_ok]

/-- A draw that did not halt had every row in memory. -/
theorem exec_drw_running {s t : State} {x y : Reg} {n : Nat} (h : exec (.drw x y n) s = .next t) (ht : t.halt = none) :
    (n = 0 ∨ s.i.toNat + n ≤ s.cfg.memSize) ∧ t = s.drawn x y n := by
  obtain ⟨_, hcheck, rfl⟩ := State.commit_map_running h ht
  exact ⟨State.checkRange_eq_ok_iff.1 hcheck, rfl⟩

theorem wf_drw_iff {x y : Reg} {n : Nat} : (Instr.drw x y n).wf = true ↔ n ≤ 15 := decide_eq_true_iff

section
variable (s : State) (x y : Reg) {n : Nat} (hn : n ≤ 15)
include hn

/-- At most 15 rows wrap to no row twice, so each cell listed is toggled once. -/
theorem State.nodup_drawn_cells : (s.spriteCells (s.reg x) (s.reg y) n).Nodup :=
  s.nodup_spriteCells _ _ n (by omega)

theorem State.cell_drawn_of_covers {p : Cell} (h : SpriteCovers s (s.reg x) (s.reg y) n p) :
    (s.drawn x y n).cell p = !s.cell p := by
  have hget := (drawCells_spec s.disp _ (s.nodup_drawn_cells x y hn)).1 p
  rwa [if_pos (State.mem_spriteCells.2 h)] at hget

theorem State.cell_drawn_of_not_covers {p : Cell} (h : ¬ SpriteCovers s (s.reg x) (s.reg y) n p) :
    (s.drawn x y n).cell p = s.cell p := by
  have hget := (drawCells_spec s.disp _ (s.nodup_drawn_cells x y hn)).1 p
  rwa [if_neg (mt State.mem_spriteCells.1 h)] at hget

/-- The flag holds whether a cell was both toggled and set before. -/
theorem State.flag_drawn : ∃ b : Bool, (s.drawn x y n).reg flagReg = flagByte b ∧
    (b = true ↔ ∃ p, SpriteCovers s (s.reg x) (s.reg y) n p ∧ s.cell p = true) := by
  refine ⟨(drawCells s.disp (s.spriteCells (s.reg x) (s.reg y) n)).2, by simp [State.drawn], ?_⟩
  simpa only [State.mem_spriteCells, State.cell] using (drawCells_spec s.disp _ (s.nodup_drawn_cells x y hn)).2

theorem State.flag_drawn_eq_one_iff : (s.drawn x y n).reg flagReg = 1 ↔
    ∃ p, SpriteCovers s (s.reg x) (s.reg y) n p ∧ s.cell p = true := by
  obtain ⟨b, hflag, hb⟩ := s.flag_drawn x y hn
  rw [hflag, ← hb]
  cases b <;> decide

theorem State.flag_drawn_eq_zero_iff : (s.drawn x y n).reg flagReg = 0 ↔
    ¬ ∃ p, SpriteCovers s (s.reg x) (s.reg y) n p ∧ s.cell p = true := by
  obtain ⟨b, hflag, hb⟩ := s.flag_drawn x y hn
  rw [hflag, ← hb]
  cases b <;> decide

end

/-- Settles O45, on the two sides of the bounds check. -/
theorem drawTogglesTheSpriteCells : Obligations.DrawTogglesTheSpriteCells := by
  refine ⟨hasRow .drw, fun x y n s hwf => ⟨fun hfit => ?_, fun hrows hout => ?_⟩⟩
  · have hn := wf_drw_iff.1 hwf
    exact ⟨_, exec_drw_of_fits x y hfit, fun p => s.cell_drawn_of_covers x y hn,
      fun p => s.cell_drawn_of_not_covers x y hn, (s.flag_drawn_eq_one_iff x y hn).2,
      (s.flag_drawn_eq_zero_iff x y hn).2, pcAdds_advance_of rfl, keepsRegsBut_advance_setReg rfl flagReg _,
      keepsBut_of (by simp [State.drawn])⟩
  · obtain ⟨k, rfl⟩ := Nat.exists_eq_add_of_le' hrows
    exact State.commit_checkRange_outside _ (by omega)

/-! ### Drawing twice (R204) -/

/-- Which cells a sprite covers depends on `I`, the sprite's bytes and the origin alone. -/
theorem spriteCovers_congr {s u : State} {x0 y0 : Byte} {n : Nat} {p : Cell} (hi : u.i = s.i)
    (hbytes : ∀ r, r < n → u.peek (s.i.toNat + r) = s.peek (s.i.toNat + r)) :
    SpriteCovers u x0 y0 n p ↔ SpriteCovers s x0 y0 n p := by
  unfold SpriteCovers
  rw [hi]
  refine exists_congr fun r => exists_congr fun c => and_congr_right fun hr => ?_
  rw [hbytes r hr]

/-- A sprite covers a cell exactly when it has a set bit, wherever it is drawn. -/
theorem exists_spriteCovers_iff {s : State} {x0 y0 : Byte} {n : Nat} :
    (∃ p, SpriteCovers s x0 y0 n p) ↔
      ∃ r c, r < n ∧ c < 8 ∧ (s.peek (s.i.toNat + r)).toNat / 2 ^ (7 - c) % 2 = 1 := by
  constructor
  · rintro ⟨p, r, c, hr, hc, hbit, -, -⟩
    exact ⟨r, c, hr, hc, hbit⟩
  · rintro ⟨r, c, hr, hc, hbit⟩
    exact ⟨wrapCell x0 y0 c r, r, c, hr, hc, hbit, rfl, rfl⟩

/-- Settles O46: the second draw covers the cells that the first one did, each of which now holds the opposite of what
it held before. -/
theorem drawingTwiceRestoresTheDisplay : Obligations.DrawingTwiceRestoresTheDisplay := by
  intro x y n s t u hwf _ _ _ hdraw ht hdisp hx hy hi hcfg hu hbytes
  have hn := wf_drw_iff.1 hwf
  obtain ⟨hfit, rfl⟩ := exec_drw_running hdraw ht
  have hcovers (p : Cell) : SpriteCovers u (u.reg x) (u.reg y) n p ↔ SpriteCovers s (s.reg x) (s.reg y) n p := by
    rw [hx, hy]
    exact spriteCovers_congr hi hbytes
  have hcell (p : Cell) : u.cell p = (s.drawn x y n).cell p := congrArg (Display.get · p) hdisp
  have hflag : (u.drawn x y n).reg flagReg = 1 ↔
      ∃ p, SpriteCovers s (s.reg x) (s.reg y) n p ∧ s.cell p = false := by
    rw [u.flag_drawn_eq_one_iff x y hn]
    refine exists_congr fun p => (and_congr_left' (hcovers p)).trans (and_congr_right fun hp => ?_)
    rw [hcell, s.cell_drawn_of_covers x y hn hp, Bool.not_eq_true']
  refine ⟨_, exec_drw_of_fits x y (by rwa [hi, hcfg]), hu, Display.ext_get fun p => ?_, hflag, fun hclear => ?_⟩
  · show (u.drawn x y n).cell p = s.cell p
    by_cases hp : SpriteCovers s (s.reg x) (s.reg y) n p
    · rw [u.cell_drawn_of_covers x y hn ((hcovers p).2 hp), hcell, s.cell_drawn_of_covers x y hn hp, Bool.not_not]
    · rw [u.cell_drawn_of_not_covers x y hn (mt (hcovers p).1 hp), hcell, s.cell_drawn_of_not_covers x y hn hp]
  · rw [hflag, ← exists_spriteCovers_iff]
    exact exists_congr fun p => and_iff_left_of_imp (hclear p)

/-! ### The right edge (R205) -/

/-- A one-row sprite covers the cells of its row under the set bits of the byte at `I`. -/
theorem spriteCovers_one_iff {s : State} {x0 y0 : Byte} {p : Cell} :
    SpriteCovers s x0 y0 1 p ↔ (∃ c, c < 8 ∧ (s.peek s.i.toNat).toNat / 2 ^ (7 - c) % 2 = 1 ∧
      p.1.val = (x0.toNat + c) % 64) ∧ p.2.val = y0.toNat % 32 := by
  constructor
  · rintro ⟨r, c, hr, hc, hbit, hcol, hrow⟩
    obtain rfl := Nat.lt_one_iff.1 hr
    exact ⟨⟨c, hc, hbit, hcol⟩, hrow⟩
  · rintro ⟨⟨c, hc, hbit, hcol⟩, hrow⟩
    exact ⟨0, c, Nat.one_pos, hc, hbit, hcol, hrow⟩

/-- Bits 7 and 6 are the only set bits of 0xC0. -/
theorem column_of_bit_of_0xC0 : ∀ c, c < 8 → (0xC0 : Byte).toNat / 2 ^ (7 - c) % 2 = 1 → c = 0 ∨ c = 1 := by
  decide

/-- Settles O47: column 0 of the sprite is drawn at column 63, and column 1 wraps to column 0. -/
theorem drawingAtTheRightEdgeWraps : Obligations.DrawingAtTheRightEdgeWraps := by
  intro x y s hin hx hbyte hclear
  have hbound := (s.peek s.i.toNat).isLt
  refine ⟨_, exec_drw_of_fits x y (.inr hin), fun p hcol hrow => ?_, fun honly p hset => ?_⟩
  · have hcovers : SpriteCovers s (s.reg x) (s.reg y) 1 p := by
      rw [spriteCovers_one_iff, hx]
      refine ⟨?_, hrow⟩
      obtain hcol | hcol := hcol
      · exact ⟨0, by omega, by omega, congrArg Fin.val hcol⟩
      · exact ⟨1, by omega, by omega, congrArg Fin.val hcol⟩
    rw [s.cell_drawn_of_covers x y (by omega) hcovers, hclear, Bool.not_false]
  · by_cases hcovers : SpriteCovers s (s.reg x) (s.reg y) 1 p
    · obtain ⟨⟨c, hc, hbit, hcol⟩, hrow⟩ := spriteCovers_one_iff.1 hcovers
      rw [honly] at hbit
      rw [hx] at hcol
      refine ⟨?_, hrow⟩
      obtain rfl | rfl := column_of_bit_of_0xC0 c hc hbit
      · exact .inl (Fin.ext hcol)
      · exact .inr (Fin.ext hcol)
    · rw [s.cell_drawn_of_not_covers x y (by omega) hcovers, hclear] at hset
      cases hset

end Sys2Proof.Machine
end

section
/-! PROOFS. Keys and timers (45_keys_timers.md): the key skips, the wait for a key, the timer moves, and the two timers
along a run of safe cycles. -/

namespace Sys2Proof.Machine

/-! ### The key skips (R220, R221, R226) -/

theorem exec_skp_of_key {s : State} {x : Reg} {b : Bool} (h : s.keyAt (s.reg x) = .ok b) :
    exec (.skp x) s = .next (s.skipIf b) := by
  simp only [exec, execSkp, h, except_map_ok, State.commit_ok]

theorem exec_sknp_of_key {s : State} {x : Reg} {b : Bool} (h : s.keyAt (s.reg x) = .ok b) :
    exec (.sknp x) s = .next (s.skipIf (!b)) := by
  simp only [exec, execSknp, h, except_map_ok, State.commit_ok]

theorem halts_skp_of_key {s : State} {x : Reg} {f : Fatal} (h : s.keyAt (s.reg x) = .error f) : Halts (.skp x) s f := by
  simp only [Halts, exec, execSkp, h, except_map_error, State.commit_error]

theorem halts_sknp_of_key {s : State} {x : Reg} {f : Fatal} (h : s.keyAt (s.reg x) = .error f) :
    Halts (.sknp x) s f := by
  simp only [Halts, exec, execSknp, h, except_map_error, State.commit_error]

/-- What a conditional skip does in one state. -/
theorem skipIf_effect {i : Instr} {s : State} {b : Bool} (h : exec i s = .next (s.skipIf b)) :
    ∃ t, exec i s = .next t ∧ (b = true → PcAdds 4 s t) ∧ (b = false → PcAdds 2 s t) ∧ KeepsBut [.pc] s t := by
  refine ⟨_, h, ?_, ?_, s.keepsBut_setPc _⟩
  · rintro rfl
    exact pcAdds_skipIf_true s
  · rintro rfl
    exact pcAdds_skipIf_false s

/-- Settles O48, on a number that names a key and on one that the policy rejects. -/
theorem keySkipsTestTheNumberedKey : Obligations.KeySkipsTestTheNumberedKey := by
  refine ⟨hasRow .skp, hasRow .sknp, fun x s => ⟨fun k hk => ?_, fun hlarge hfault => ?_⟩⟩
  · have hkey : s.keyAt (s.reg x) = .ok s.key[k] := by
      obtain hk | ⟨hmask, hk⟩ := hk
      · exact s.keyAt_of_lt _ k hk
      · exact s.keyAt_mask _ k hmask hk
    exact ⟨skipIf_effect (exec_skp_of_key hkey),
      by simpa only [Bool.not_eq_true', Bool.not_eq_false'] using skipIf_effect (exec_sknp_of_key hkey)⟩
  · have hkey := s.keyAt_fault _ hlarge hfault
    exact ⟨halts_skp_of_key hkey, halts_sknp_of_key hkey⟩

/-! ### The wait for a key (R223) -/

theorem exec_ldVxK_of_pressed {s : State} (x : Reg) {k : Fin 16} (hk : s.key[k] = true)
    (hlast : ∀ j : Fin 16, k < j → s.key[j] = false) :
    exec (.ldVxK x) s = .next (s.setReg x (BitVec.ofNat 8 k.val)).advance := by
  simp only [exec, execLdVxK, s.lastPressed_eq_some k hk hlast]

theorem exec_ldVxK_of_not_pressed {s : State} (x : Reg) (h : ∀ k : Fin 16, s.key[k] = false) :
    exec (.ldVxK x) s = .next s := by
  simp only [exec, execLdVxK, s.lastPressed_eq_none h]

/-- Settles O49, with a key pressed and with none. -/
theorem waitForKeyTakesTheHighest : Obligations.WaitForKeyTakesTheHighest := by
  refine ⟨hasRow .ldVxK, fun x s => ⟨fun k hk hlast => ?_, exec_ldVxK_of_not_pressed x⟩⟩
  have hbyte : k.val % 256 = k.val := by omega
  exact ⟨_, exec_ldVxK_of_pressed x hk hlast, by simp [hbyte], pcAdds_advance_of rfl,
    keepsRegsBut_advance_setReg rfl x _, keepsBut_of (by simp)⟩

/-! ### The timer moves (R222, R224, R225) -/

/-- Settles O50: one register write of the timer, and one write of each timer that the housekeeping then counts down. -/
theorem timerMovesReadAndWrite : Obligations.TimerMovesReadAndWrite :=
  ⟨hasRow .ldVxDt, hasRow .ldDtVx, hasRow .ldStVx, fun _ =>
    ⟨writesRegister_of (fun s => s.dt) (fun _ => rfl) fun _ => rfl, fun _ =>
      ⟨⟨_, rfl, rfl, State.housekeeping_dt_toNat _, pcAdds_advance_of rfl, keepsBut_of (by simp)⟩,
        ⟨_, rfl, rfl, State.housekeeping_st_toNat _, State.toneNow_iff _, pcAdds_advance_of rfl,
          keepsBut_of (by simp)⟩⟩⟩⟩

/-- Settles O10: the housekeeping's own rules, together. -/
theorem housekeepingCountsBothTimersDown : Obligations.HousekeepingCountsBothTimersDown := fun s =>
  ⟨s.housekeeping_dt_toNat, s.housekeeping_st_toNat, s.toneNow_iff, s.keepsBut_housekeeping⟩

/-! ### The timers along a run (R233) -/

section
variable {σ : Nat → State} {ρ : Nat → CycleResult} {j k : Nat}

/-- One cycle of a safe trace without LD DT counts the delay timer down; the host's keys and random byte leave it. -/
theorem dt_succ_of_safeTrace (h : SafeTraceWithout .ldDtVx σ ρ k) (hj : j < k) :
    (σ (j + 1)).dt.toNat = (σ j).dt.toNat - 1 := by
  obtain ⟨hcycles, hsafe⟩ := h
  obtain ⟨hrun, keys, rnd, hnext⟩ := hcycles j hj
  obtain ⟨hnonfatal, hop⟩ := hsafe j hj
  obtain ⟨-, hdt, -, -⟩ := timersCountOncePerSafeCycle _ _ hrun hnonfatal
  rw [hnext]
  exact hdt fun x hcur => hop _ hcur rfl

/-- One cycle of a safe trace without LD ST counts the sound timer down, and sounds the tone where that was 1. -/
theorem st_succ_and_tone_of_safeTrace (h : SafeTraceWithout .ldStVx σ ρ k) (hj : j < k) :
    (σ (j + 1)).st.toNat = (σ j).st.toNat - 1 ∧ ((ρ j).tone = true ↔ (σ j).st.toNat = 1) := by
  obtain ⟨hcycles, hsafe⟩ := h
  obtain ⟨hrun, keys, rnd, hnext⟩ := hcycles j hj
  obtain ⟨hnonfatal, hop⟩ := hsafe j hj
  obtain ⟨-, -, -, hst⟩ := timersCountOncePerSafeCycle _ _ hrun hnonfatal
  rw [hnext]
  exact hst fun x hcur => hop _ hcur rfl

/-- A number that counts down once a cycle is, after `j` cycles, its start less `j`, not below 0. -/
theorem eq_start_sub_of_succ_eq {f : Nat → Nat} (h : ∀ j, j < k → f (j + 1) = f j - 1) (hj : j ≤ k) :
    f j = f 0 - j := by
  induction j with
  | zero => rfl
  | succ j ih => rw [h j hj, ih (by omega), Nat.sub_sub]

end

/-- Settles O18: the delay timer counts down once a cycle. -/
theorem delayTimerReachesZeroAndStays : Obligations.DelayTimerReachesZeroAndStays := fun σ _ _ h _ hj =>
  eq_start_sub_of_succ_eq (f := fun j => (σ j).dt.toNat) (fun _ hi => dt_succ_of_safeTrace h hi) hj

/-- Settles O17: the sound timer before cycle `j` is its start less `j`, and the tone sounds where that is 1. -/
theorem toneSoundsInExactlyOneCycle : Obligations.ToneSoundsInExactlyOneCycle := by
  intro σ ρ k h j hj
  have hst : (σ j).st.toNat = (σ 0).st.toNat - j :=
    eq_start_sub_of_succ_eq (f := fun j => (σ j).st.toNat)
      (fun _ hi => (st_succ_and_tone_of_safeTrace h hi).1) hj.le
  rw [(st_succ_and_tone_of_safeTrace h hj).2, hst]
  omega

end Sys2Proof.Machine
end

section
/-! PROOFS. Outcomes and faults (60_exceptions.md): a fatal outcome is precise, which instruction raises which, the halted
block, and that every cycle answers. -/

namespace Sys2Proof.Machine

/-! ### A fatal outcome is precise (R245) -/

theorem State.endExec_outcome_fatal {t : State} {f : Fatal} (h : t.endExec.outcome = .fatal f) :
    t.halt = some f ∧ t.endExec = t.endFatal f := by
  cases ht : t.halt with
  | none =>
    rw [State.endExec_of_running ht] at h
    cases h
  | some g =>
    rw [State.endExec_of_halted ht] at h ⊢
    cases h
    exact ⟨rfl, rfl⟩

/-- Settles O13: a running block reports a fatal outcome from its fetch, or from an instruction, which then discarded every
write. -/
theorem fatalOutcomesArePrecise : Obligations.FatalOutcomesArePrecise := by
  intro s r f hs h hr
  obtain ⟨g, hg, -⟩ | ⟨-, g, -, rfl⟩ | ⟨-, w, e, -, -, rfl⟩ | ⟨-, w, i, t, -, -, he, rfl⟩ := runCycle_cases h
  · cases hs.symm.trans hg
  · cases hr
    exact ⟨rfl, rfl⟩
  · cases hr
  · obtain ⟨ht, hend⟩ := State.endExec_outcome_fatal hr
    rw [hend]
    exact ⟨eq_raiseFatal_of_exec hs he ht, rfl⟩

/-! ### The fatal outcomes of each instruction (R241, R242) -/

/-- A meaning that checks a range answers what it computes, or halts with `MemoryBounds` and with no other kind (R56). -/
theorem State.commit_checkRange_cases (s : State) (a n : Nat) (g : Unit → State) :
    s.commit ((s.checkRange a n).map g) = .next (g ()) ∨
      ∃ b, s.commit ((s.checkRange a n).map g) = .next { s with halt := some (.memoryBounds b) } := by
  rw [State.checkRange_eq]
  split
  · exact .inl rfl
  · exact .inr ⟨_, rfl⟩

/-- An instruction keeps `HALT`, or halts with a kind of fatal outcome that R241 lists for it. -/
theorem exec_keeps_halt_or_halts_as_listed (i : Instr) (s : State) :
    (∃ t, exec i s = .next t ∧ t.halt = s.halt) ∨ ∃ f, Halts i s f ∧ MayRaise i f := by
  cases i with
  | ret =>
    obtain hempty | ⟨k, hk⟩ := s.sp_cases
    · exact .inr ⟨_, halts_ret_of_empty hempty, trivial⟩
    · exact .inl ⟨_, exec_ret_of_entry hk, rfl⟩
  | call nnn =>
    obtain hfull | ⟨k, hk⟩ := s.sp_cases_full
    · exact .inr ⟨_, halts_call_of_full nnn hfull, trivial⟩
    · exact .inl ⟨_, exec_call_of_room nnn hk, rfl⟩
  | skp x =>
    obtain ⟨k, hk⟩ | hfault := s.keyAt_cases (s.reg x)
    · exact .inl ⟨_, exec_skp_of_key hk, rfl⟩
    · exact .inr ⟨_, halts_skp_of_key hfault, trivial⟩
  | sknp x =>
    obtain ⟨k, hk⟩ | hfault := s.keyAt_cases (s.reg x)
    · exact .inl ⟨_, exec_sknp_of_key hk, rfl⟩
    · exact .inr ⟨_, halts_sknp_of_key hfault, trivial⟩
  | drw _ _ _ | ldBVx _ | ldMemVx _ | ldVxMem _ =>
    obtain hin | ⟨b, hout⟩ := s.commit_checkRange_cases _ _ _
    · exact .inl ⟨_, hin, by simp⟩
    · exact .inr ⟨_, hout, trivial⟩
  | seReg x y =>
    obtain ⟨t, ht⟩ := exec_answers (.seReg x y) s
    obtain ⟨-, rfl⟩ | ⟨-, rfl | rfl⟩ := exec_seReg_cases ht <;> exact .inl ⟨_, ht, rfl⟩
  | ldVxK x =>
    obtain ⟨t, ht⟩ := exec_answers (.ldVxK x) s
    obtain ⟨-, rfl⟩ | ⟨k, -, rfl⟩ := exec_ldVxK_cases ht <;> exact .inl ⟨_, ht, rfl⟩
  | addReg _ _ | sub _ _ | shr _ _ | subn _ _ | shl _ _ =>
    exact .inl ⟨_, rfl, by rw [State.writeRF_eq]⟩
  | rnd x nn =>
    obtain ⟨r, n, hr⟩ := s.takeRnd_snd
    exact .inl ⟨_, rfl, by simp [hr]⟩
  | _ => exact .inl ⟨_, rfl, rfl⟩

/-- Settles O20: a running block whose instruction answers a halted state did not keep `HALT`. -/
theorem onlyListedInstructionsRaiseFatal : Obligations.OnlyListedInstructionsRaiseFatal := by
  intro i s t f hs h ht
  obtain ⟨u, hu, hkeep⟩ | ⟨g, hg, hlisted⟩ := exec_keeps_halt_or_halts_as_listed i s
  · cases hu.symm.trans h
    cases hs.symm.trans (hkeep.symm.trans ht)
  · cases hg.symm.trans h
    cases ht
    exact hlisted

/-! ### The halted block (R246) -/

theorem State.cycle_of_halted {s : State} {f : Fatal} (h : s.halt = some f) (b : Byte) :
    s.cycle b = .next ((s.setRndIn none).endFatal f) := by
  simp only [State.cycle, runCycle_halted (s := s.setRndIn (some b)) h]
  rfl

@[simp] theorem State.load_halt (s : State) (bytes : List Byte) : (s.load bytes).1.halt = s.halt := by
  by_cases hfit : 0x200 + bytes.length ≤ s.cfg.memSize
  · rw [State.load_of_fits hfit, State.pokes_halt]
  · rw [State.load_of_not_fits hfit]

/-- Settles O12, transaction by transaction. -/
theorem haltedBlockStaysHaltedUntilReset : Obligations.HaltedBlockStaysHaltedUntilReset := by
  intro s f h
  have hrun : runCycle s = .next (s.endFatal f) := runCycle_halted h
  refine ⟨hrun, step_of_runCycle hrun, fun b => ?_, fun k => ⟨?_, s.key_setKeys k⟩, fun bytes => ?_, s.get_readDisplay,
    rfl⟩
  · exact ⟨_, State.cycle_of_halted h b, rfl, rfl, s.keepsBut_setRndIn none⟩
  · rw [State.setKeys_halt, h]
  · rw [State.load_halt, h]

/-! ### Every cycle answers (R240) -/

/-- Settles O14: each stage of the cycle answers a result, whose state is the step's. -/
theorem everyStepAnswersANextState : Obligations.EveryStepAnswersANextState := by
  intro s
  obtain ⟨r, hr⟩ := runCycle_answers s
  exact ⟨⟨r, hr⟩, r.state, step_of_runCycle hr⟩

end Sys2Proof.Machine
end

section
/-! PROOFS. Reset (70_reset_and_hazards.md): the state after construction, and the `reset()` transaction. -/

namespace Sys2Proof.Machine

/-! ### Construction (R39, R270) -/

theorem Memory.background_font (c : Config) (a : Fin 80) : Memory.background c a.val = c.font[a] := dif_pos a.isLt

theorem Memory.background_eq_zero (c : Config) {a : Nat} (h : 80 ≤ a) : Memory.background c a = 0 :=
  dif_neg (Nat.not_lt.2 h)

theorem State.reg_constructed (c : Config) (x : Reg) : (State.constructed c).reg x = 0 :=
  Vector.getElem_replicate x.isLt

theorem State.stack_constructed (c : Config) (k : Fin 16) : (State.constructed c).stack[k] = 0 :=
  Vector.getElem_replicate k.isLt

theorem State.key_constructed (c : Config) (k : Fin 16) : (State.constructed c).key[k] = false :=
  Vector.getElem_replicate k.isLt

theorem State.cell_constructed (c : Config) (p : Cell) : (State.constructed c).cell p = false := Display.get_clear p

theorem State.peek_constructed (c : Config) (a : Nat) : (State.constructed c).peek a = Memory.background c a :=
  Memory.read_nil c a

/-- Settles O51: no byte is listed at construction, so memory reads as its background; the other fields are constants. -/
theorem constructionValues : Obligations.ConstructionValues := by
  rintro c _ rfl
  refine ⟨State.reg_constructed c, rfl, Params.programBase_toNat, State.stack_constructed c, rfl, rfl, rfl,
    State.cell_constructed c, State.key_constructed c, rfl, fun a => ?_, fun a ha => ?_⟩
  · rw [State.peek_constructed, Memory.background_font]
  · rw [State.peek_constructed, Memory.background_eq_zero c ha]

/-! ### The `reset()` transaction (R39, R271) -/

/-- `reset()` leaves out the cells listed in the font, which then reads as its background, and keeps the others. -/
theorem State.peek_resetTx (s : State) (a : Nat) :
    s.resetTx.peek a = if 80 ≤ a then s.peek a else Memory.background s.cfg a := by
  have hlookup : Memory.lookup s.resetTx.mem a = if 80 ≤ a then Memory.lookup s.mem a else none :=
    Memory.lookup_filter_ge s.mem 80 a
  have hcfg : s.resetTx.cfg = s.cfg := rfl
  simp only [State.peek, Memory.read, hlookup, hcfg]
  split <;> rfl

/-- `KEY`, the parameters and the model's own random-byte fields are all that `reset()` keeps as a whole. -/
theorem State.keepsBut_resetTx (s : State) :
    KeepsBut [.mem, .regs, .index, .pc, .stack, .sp, .display, .dt, .st, .halt] s s.resetTx :=
  keepsBut_of (by simp [State.resetTx, State.constructed])

theorem step_of_halted {s : State} {f : Fatal} (h : s.halt = some f) : step s = .next s :=
  step_of_runCycle (runCycle_halted h)

theorem step_keeps_halt_of_halted {s t : State} (h : s.halt ≠ none) (ht : step s = .next t) : t.halt = s.halt := by
  obtain ⟨f, hf⟩ := Option.ne_none_iff_exists'.1 h
  cases (step_of_halted hf).symm.trans ht
  rfl

/-- Settles O52: outside memory and what `reset()` keeps, its state is the one at construction with the same
parameters. -/
theorem resetTransactionValues : Obligations.ResetTransactionValues := by
  intro s
  refine ⟨State.reg_constructed s.cfg, State.stack_constructed s.cfg, rfl, rfl, rfl, rfl, State.cell_constructed s.cfg,
    fun a => ?_, fun a ha => ?_, Params.programBase_toNat, rfl, s.keepsBut_resetTx, fun hhalt => ?_⟩
  · rw [State.peek_resetTx, if_neg (Nat.not_le.2 a.isLt), Memory.background_font]
  · rw [State.peek_resetTx, if_pos ha]
  · exact ⟨fun t ht => step_keeps_halt_of_halted hhalt ht, fun k bytes => ⟨s.setKeys_halt k, s.load_halt bytes⟩⟩

end Sys2Proof.Machine
end
